-- ==== Sys2Proof/Word.lean ====
section
/-! DEFINITION. The value types of 00_scope.md R11 and the word arithmetic of R13. -/

namespace Sys2Proof

/-- A nibble: the 4-bit entries of the S-box tables (40_layers.md R131). -/
abbrev Nibble := BitVec 4

/-- "A **byte** is an unsigned 8-bit value, bit 0 least significant" (00_scope.md R11). -/
abbrev Byte := BitVec 8

/-- "A **word** is an unsigned 32-bit value, bit 0 least significant" (00_scope.md R11). -/
abbrev Word := BitVec 32

/-- "A **block** is a sequence of 16 bytes `b[0] .. b[15]`" (00_scope.md R11). -/
abbrev Block := Vector Byte 16

/-- "A **key buffer** is a sequence of 32 bytes" (00_scope.md R11). -/
abbrev KeyBuffer := Vector Byte 32

/-- The prekey array: "140 words of 32 bits" (10_state.md R45). -/
abbrev Prekeys := Vector Word 140

/-- `rotl(v, n) = ((v << n) | (v >> (32 - n)))`, for `n` in `1..31` (00_scope.md R13). -/
def rotl (v : Word) (n : Nat) : Word := (v <<< n) ||| (v >>> (32 - n))

/-- `rotr(v, n) = ((v >> n) | (v << (32 - n)))`, for `n` in `1..31` (00_scope.md R13). -/
def rotr (v : Word) (n : Nat) : Word := (v >>> n) ||| (v <<< (32 - n))

end Sys2Proof
end

