-- ==== Sys2Proof/Syntax.lean ====
section
/-! DEFINITION. The engine's commands (30_encoding.md R102), one constructor per row of the opcode table, and
the host's side: register names (20_memory.md R71), bus accesses, statements and pseudo-instructions
(R106, R107), and whose turn it is to move. -/

namespace Sys2Proof

/-- The thirteen commands (30_encoding.md R102). An operand is the value of `ARG`, "zero-extended, never
sign-extended, never scaled" (R101). -/
inductive Instr where
  | setkey (len : Nat)            -- 41_key_schedule.md R175
  | encrypt                       -- 42_cipher.md R200
  | decrypt                       -- 42_cipher.md R202
  | roundkey (round : Nat)        -- 41_key_schedule.md R178
  | sbox (roundIndex : Nat)       -- 40_layers.md R133
  | sboxInv (roundIndex : Nat)    -- 40_layers.md R134
  | ip                            -- 40_layers.md R138
  | fp                            -- 40_layers.md R139
  | lt                            -- 40_layers.md R145
  | ltInv                         -- 40_layers.md R146
  | cbcInit                       -- 43_cbc.md R222
  | cbcEnc (n : Nat)              -- 43_cbc.md R223
  | cbcDec                        -- 43_cbc.md R224
  deriving DecidableEq, Repr

/-- The registers of the window by name (20_memory.md R71); an index counts the words of a multi-word
register. `reserved` stands for every reserved offset. -/
inductive RegName where
  | cmd
  | status
  | info
  | key (n : Nat)
  | blk (n : Nat)
  | iv (n : Nat)
  | nonceLo
  | nonceHi
  | rk (n : Nat)
  | pk (i : Nat)
  | reserved
  deriving DecidableEq, Repr

/-- The width of a bus access; only 32-bit accesses are defined (20_memory.md R74). -/
inductive Width where
  | byte
  | half
  | word
  deriving DecidableEq, Repr

/-- What a bus access does: a read, or a write of a value. -/
inductive Access where
  | read
  | write (value : Word)
  deriving DecidableEq, Repr

/-- One bus transaction of the host: "(read or write, offset, value)" (30_encoding.md R106), here with the
bus address `BASE + off` (20_memory.md R70) and the width. -/
structure BusAccess where
  addr : Nat
  width : Width
  access : Access
  deriving DecidableEq, Repr

/-- What the host does next: one bus transaction, or `POLL`, which repeats `RD STATUS` "until the value read
has bit 0 = 0" (30_encoding.md R107). -/
inductive HostOp where
  | bus (a : BusAccess)
  | poll
  deriving DecidableEq, Repr

/-- Who moves next (00_scope.md R17, 20_memory.md R79, 70_reset_and_hazards.md R270, R273): the host performs
its next statement, the engine may complete its pending command, or the reset input changes level. -/
inductive Turn where
  | host
  | engine
  | assertReset
  | releaseReset
  deriving DecidableEq, Repr

/-- `<reg>` of a host statement: a register name of 20_memory.md R71 or `@<offset>` (30_encoding.md R106). -/
inductive RegRef where
  | named (r : RegName)
  | offset (off : Nat)
  deriving DecidableEq, Repr

/-- Host statements: the two primitives (30_encoding.md R106) and the pseudo-instructions (R107).
`command i` is the row of the command's own mnemonic. -/
inductive HostStmt where
  | wr (reg : RegRef) (imm : Word)
  | rd (reg : RegRef)
  | command (i : Instr)
  | poll
  | loadblk (b : Block)
  | loadiv (b : Block)
  | loadkey (k : List Byte)
  | loadnonce (imm : BitVec 64)
  | readblk
  | readiv
  | readrk
  | clrerr
  deriving DecidableEq, Repr

end Sys2Proof
end

