-- ==== Sys2Proof/Decode.lean ====
section
/-! DEFINITION. The command word (30_encoding.md R100 to R104): its fields, the opcode map, the total decoder
with its named rejections, and the encoder. -/

namespace Sys2Proof

/-- `RSV`, bits `[31:16]` (30_encoding.md R100). -/
def rsvField (w : Word) : BitVec 16 := w.extractLsb' 16 16

/-- `ARG`, bits `[15:8]` (30_encoding.md R100). -/
def argField (w : Word) : Byte := w.extractLsb' 8 8

/-- `OP`, bits `[7:0]` (30_encoding.md R100). -/
def opField (w : Word) : Byte := w.extractLsb' 0 8

/-- Why a word is an illegal command (30_encoding.md R104). -/
inductive Illegal where
  /-- "any word with `RSV != 0`" -/
  | reservedBits
  /-- "every `OP` not in rule R102 (including `0x00`)" -/
  | unknownOpcode
  /-- "any word with a non-zero `ARG` for a command that takes none" -/
  | argumentNotZero
  deriving DecidableEq, Repr

/-- The rows of `decode` that take no operand: legal only with `ARG = 0` (30_encoding.md R103). -/
def plainCommand (arg : Byte) (i : Instr) : Except Illegal Instr :=
  if arg = 0 then .ok i else .error .argumentNotZero

/-- `decode(w)` of 30_encoding.md R103, total on words; `ILLEGAL` carries the reason. -/
def decode (w : Word) : Except Illegal Instr :=
  if rsvField w ≠ 0 then .error .reservedBits
  else match (opField w).toNat with
    | 0x01 => .ok (.setkey (argField w).toNat)
    | 0x02 => plainCommand (argField w) .encrypt
    | 0x03 => plainCommand (argField w) .decrypt
    | 0x04 => .ok (.roundkey (argField w).toNat)
    | 0x10 => .ok (.sbox (argField w).toNat)
    | 0x11 => .ok (.sboxInv (argField w).toNat)
    | 0x12 => plainCommand (argField w) .ip
    | 0x13 => plainCommand (argField w) .fp
    | 0x14 => plainCommand (argField w) .lt
    | 0x15 => plainCommand (argField w) .ltInv
    | 0x20 => plainCommand (argField w) .cbcInit
    | 0x21 => .ok (.cbcEnc (argField w).toNat)
    | 0x22 => plainCommand (argField w) .cbcDec
    | _ => .error .unknownOpcode

/-- A command word from its fields, `RSV = 0` (30_encoding.md R100); the operand in `ARG`. -/
def commandWord (op : Byte) (arg : Nat) : Word :=
  (BitVec.ofNat 32 (arg % 256) <<< 8) ||| op.setWidth 32

/-- The word of a command, from the encodings of 30_encoding.md R102 (and R107's expansions). -/
def encode : Instr → Word
  | .setkey len => commandWord 0x01 len
  | .encrypt => commandWord 0x02 0
  | .decrypt => commandWord 0x03 0
  | .roundkey round => commandWord 0x04 round
  | .sbox roundIndex => commandWord 0x10 roundIndex
  | .sboxInv roundIndex => commandWord 0x11 roundIndex
  | .ip => commandWord 0x12 0
  | .fp => commandWord 0x13 0
  | .lt => commandWord 0x14 0
  | .ltInv => commandWord 0x15 0
  | .cbcInit => commandWord 0x20 0
  | .cbcEnc n => commandWord 0x21 n
  | .cbcDec => commandWord 0x22 0

/-- One row of the opcode map: "a word `w` selects the row when `w & mask = match`" (30_encoding.md R102). -/
structure OpcodeRow where
  mnemonic : String
  pattern : Word
  mask : Word
  deriving DecidableEq, Repr

/-- The row's test on a word (30_encoding.md R102). -/
def OpcodeRow.selects (r : OpcodeRow) (w : Word) : Prop := w &&& r.mask = r.pattern

/-- The opcode map's `match` and `mask` columns for each command (30_encoding.md R102), transcribed from the
table and not computed from `encode`. -/
def opcodeRow : Instr → OpcodeRow
  | .setkey _ => ⟨"SETKEY", 0x00000001, 0xFFFF00FF⟩
  | .encrypt => ⟨"ENCRYPT", 0x00000002, 0xFFFFFFFF⟩
  | .decrypt => ⟨"DECRYPT", 0x00000003, 0xFFFFFFFF⟩
  | .roundkey _ => ⟨"ROUNDKEY", 0x00000004, 0xFFFF00FF⟩
  | .sbox _ => ⟨"SBOX", 0x00000010, 0xFFFF00FF⟩
  | .sboxInv _ => ⟨"SBOX_INV", 0x00000011, 0xFFFF00FF⟩
  | .ip => ⟨"IP", 0x00000012, 0xFFFFFFFF⟩
  | .fp => ⟨"FP", 0x00000013, 0xFFFFFFFF⟩
  | .lt => ⟨"LT", 0x00000014, 0xFFFFFFFF⟩
  | .ltInv => ⟨"LT_INV", 0x00000015, 0xFFFFFFFF⟩
  | .cbcInit => ⟨"CBC_INIT", 0x00000020, 0xFFFFFFFF⟩
  | .cbcEnc _ => ⟨"CBC_ENC", 0x00000021, 0xFFFF00FF⟩
  | .cbcDec => ⟨"CBC_DEC", 0x00000022, 0xFFFFFFFF⟩

/-- The instruction the decoder reads from an instruction whose bits are `w`, numbered as the opcode table
numbers them. A command is exactly one 32-bit word (30_encoding.md R100), so a longer bit string with a bit
set above bit 31 is no command (log 18). -/
def decodeTableWord (nbits w : Nat) : Option Instr :=
  let bits := w % 2 ^ nbits
  if bits < 2 ^ 32 then
    match decode (BitVec.ofNat 32 bits) with
    | .ok i => some i
    | .error _ => none
  else none

end Sys2Proof
end

