-- ==== Sys2Proof/Config.lean ====
section
/-! DEFINITION. What an implementation fixes (00_scope.md R9) and the free values: the parameter record of
the constant tables, the window's bus address, and the draws the spec leaves open. -/

namespace Sys2Proof

/-- The table parameters of 00_scope.md R9, "immutable static data" (10_state.md R49): the eight forward
S-box tables and the initial-permutation table, `ip[i]` being the source bit of output bit `i`
(40_layers.md R135). The inverse tables are computed from these (R132, R136).
Plain data; `Tables.Valid` says that they are permutations. -/
structure Tables where
  sbox : Vector (Vector Nibble 16) 8
  ip : Vector (Fin 128) 128
  deriving DecidableEq, Repr

/-- "each a permutation of `{0..15}`" (00_scope.md R8) and "a bijection": no entry occurs twice in an S-box
table or in `IP_TABLE`. -/
abbrev Tables.Valid (T : Tables) : Prop :=
  (∀ t : Fin 8, (T.sbox[t]).toList.Nodup) ∧ T.ip.toList.Nodup

/-- The 4 KiB page of the bus that holds the window: `BASE` is an OPEN platform parameter, "4096-byte
aligned" (00_scope.md R9, 20_memory.md R70). No body: nothing can be proved of its value (log 10). -/
opaque Config.basePage : Nat

/-- `BASE`, the bus address of register offset 0 (00_scope.md R9). -/
def Config.base : Nat := 4096 * Config.basePage

/-- The n-th free 32-bit draw: an unwritten word at reset (10_state.md R60) or a word read while busy
(20_memory.md R81) or under reset (70_reset_and_hazards.md R270). No body (log 1, 2, 3). -/
opaque Config.freeWord : Nat → Word

/-- The n-th free byte: an unwritten register byte at reset (10_state.md R60). No body (log 1). -/
opaque Config.freeByte : Nat → Byte

end Sys2Proof
end

