-- ==== Sys2Proof/Machine/Tables.lean ====
section
/-! DEFINITION. The constant tables: the defaults of `SBOX_TABLES` and `IP_TABLE` (40_layers.md R131, R135),
the look-ups, the inverse tables (R132, R136) and `PHI` (00_scope.md R8). -/

namespace Sys2Proof.Machine

/-- The default `SBOX_TABLES` of 40_layers.md R131, row by row. -/
def defaultSbox : Vector (Vector Nibble 16) 8 :=
  #v[#v[0x3, 0x8, 0xf, 0x1, 0xa, 0x6, 0x5, 0xb, 0xe, 0xd, 0x4, 0x2, 0x7, 0x0, 0x9, 0xc],
     #v[0xf, 0xc, 0x2, 0x7, 0x9, 0x0, 0x5, 0xa, 0x1, 0xb, 0xe, 0x8, 0x6, 0xd, 0x3, 0x4],
     #v[0x8, 0x6, 0x7, 0x9, 0x3, 0xc, 0xa, 0xf, 0xd, 0x1, 0xe, 0x4, 0x0, 0xb, 0x5, 0x2],
     #v[0x0, 0xf, 0xb, 0x8, 0xc, 0x9, 0x6, 0x3, 0xd, 0x1, 0x2, 0x4, 0xa, 0x7, 0x5, 0xe],
     #v[0x1, 0xf, 0x8, 0x3, 0xc, 0x0, 0xb, 0x6, 0x2, 0x5, 0x4, 0xa, 0x9, 0xe, 0x7, 0xd],
     #v[0xf, 0x5, 0x2, 0xb, 0x4, 0xa, 0x9, 0xc, 0x0, 0x3, 0xe, 0x8, 0xd, 0x6, 0x7, 0x1],
     #v[0x7, 0x2, 0xc, 0x5, 0x8, 0x4, 0x6, 0xb, 0xe, 0x9, 0x1, 0xf, 0xd, 0x3, 0xa, 0x0],
     #v[0x1, 0xd, 0xf, 0x0, 0xe, 0x8, 0x2, 0xb, 0x7, 0x4, 0xc, 0xa, 0x9, 0x3, 0x5, 0x6]]

/-- The default `IP_TABLE[i] = 32 * (i mod 4) + (i div 4)` of 40_layers.md R135. -/
def defaultIp : Vector (Fin 128) 128 :=
  Vector.ofFn fun i => ⟨32 * (i.val % 4) + i.val / 4, by omega⟩

/-- The defaults of the parameters `SBOX_TABLES` and `IP_TABLE` (00_scope.md R9). -/
def defaultTables : Tables where
  sbox := defaultSbox
  ip := defaultIp

/-- `PHI = 0x9e3779b9` (00_scope.md R8). -/
def phi : Word := 0x9e3779b9

/-- The entries of the S-box table for a round index: "Selects table `round mod 8`" (40_layers.md R133). -/
def sboxRow (T : Tables) (r : Nat) : List Nibble :=
  (T.sbox.toList.getD (r % 8) (Vector.replicate 16 0)).toList

/-- `SBOX_TABLES[r mod 8][x]` (40_layers.md R133). -/
def sboxAt (T : Tables) (r : Nat) (x : Nibble) : Nibble := (sboxRow T r).getD x.toNat 0

/-- `SBOX_INV_TABLES[r mod 8][y]`, "the functional inverse of the forward table at the same index"
(40_layers.md R132): the index at which the forward table holds `y`. -/
def sboxInvAt (T : Tables) (r : Nat) (y : Nibble) : Nibble := BitVec.ofNat 4 ((sboxRow T r).idxOf y)

/-- `IP_TABLE[i]`, the source bit of output bit `i` (40_layers.md R135). -/
def ipAt (T : Tables) (i : Nat) : Nat := (T.ip.toList.getD i 0).val

/-- `FP_TABLE[i]`, "the inverse of `IP_TABLE`": the index at which `IP_TABLE` holds `i` (40_layers.md R136). -/
def fpAt (T : Tables) (i : Nat) : Nat := T.ip.toList.findIdx fun j => j.val == i

end Sys2Proof.Machine
end

