-- ==== Sys2Proof/Machine/State.lean ====
section
/-! DEFINITION. The machine's state as plain data (10_state.md), the reasons a step can stop, and the state
after reset (10_state.md R61, 70_reset_and_hazards.md R270). -/

namespace Sys2Proof.Machine

/-- Why the machine stops with a fault. -/
inductive Fault where
  /-- Raised by the host's turn for a bus access outside the 4096-byte window at `BASE`, the engine's only
  address space (20_memory.md R70). Safe: the engine itself would not see the access (log 9). -/
  | outsideWindow
  deriving DecidableEq, Repr

/-- Why the machine gives an access or an instruction no meaning. -/
inductive Refusal where
  /-- Raised only by `exec`'s arm of a command that has no meaning yet. Safe. -/
  | notModelled (mnemonic : String)
  /-- Raised by the host's turn for an 8-bit or 16-bit access: "A model refuses such an access"
  (20_memory.md R74). Safe (log 8). -/
  | subWordAccess
  /-- Raised by the host's turn for an offset that is not a multiple of 4 (20_memory.md R74). Safe (log 8). -/
  | misalignedAccess
  deriving DecidableEq, Repr

/-- The engine's error kinds (60_exceptions.md R241). -/
inductive ErrorCode where
  | invalidKeyLength
  | uninitializedKey
  | illegalCommand
  | badArgument
  deriving DecidableEq, Repr

/-- The engine's registers and hidden state (10_state.md R30). `pending` is the one home of `PENDING` (R46),
`STATUS.BUSY` (R33) and the collapsed `PHASE` (R47): see `Engine.busy` and `Engine.phase` (log 6). -/
structure Engine where
  /-- `KEYBUF[0..32)` (10_state.md R40). -/
  keybuf : KeyBuffer
  /-- `BLK[0..16)` (R41). -/
  blk : Block
  /-- `IV[0..16)`, the chain state (R42). -/
  iv : Block
  /-- `NONCE_LO` (R43). -/
  nonceLo : Word
  /-- `NONCE_HI` (R43). -/
  nonceHi : Word
  /-- `RK[0..16)`, the round-key output (R44). -/
  rk : Block
  /-- `PK[0..140)`, the prekey array (R45). -/
  pk : Prekeys
  /-- `STATUS.KEY_VALID` (R34). -/
  keyValid : Bool
  /-- `STATUS.ERRS` (R35). -/
  errs : Bool
  /-- `STATUS.OVR` (R36). -/
  ovr : Bool
  /-- `STATUS.ERR` (R37). -/
  err : BitVec 4
  /-- `PENDING`, "the command word latched at issue, held while `STATUS.BUSY = 1`" (R46). -/
  pending : Option Word
  deriving DecidableEq, Repr

/-- The value one host read returned (30_encoding.md R106), with the bus address read. -/
structure ReadResult where
  addr : Nat
  value : Word
  deriving DecidableEq, Repr

/-- The configuration, the engine, the reset input, the host, whose turns come next, and how many free values were drawn. -/
structure State where
  /-- The configuration `SBOX_TABLES` and `IP_TABLE` the machine was built with (00_scope.md R9), "unaffected by
  reset and by every command" (10_state.md R49): no step changes it (log 11). -/
  tables : Tables
  /-- The engine (10_state.md R30). -/
  engine : Engine
  /-- The level of the reset input `rst` (70_reset_and_hazards.md R270). -/
  rst : Bool
  /-- The statements the host has still to perform, in order (30_encoding.md R106). -/
  program : List HostOp
  /-- The values the host's reads returned, newest first (R106, 70_reset_and_hazards.md R280; log 12). -/
  results : List ReadResult
  /-- The order in which the agents move: any interleaving (20_memory.md R79, 70_reset_and_hazards.md R273).
  The model's own field (log 5). -/
  turns : List Turn
  /-- How many indexes of the free values were used. The model's own field (log 1). -/
  draws : Nat
  deriving DecidableEq, Repr

/-- How many indexes of `Config.freeWord` and `Config.freeByte` one reset uses. -/
def resetDraws : Nat := 142

/-- The engine at reset (10_state.md R61): `STATUS = 0`, nothing pending, and every byte of a data register
and every prekey word "a free draw", never zero (R60; log 1), here the draws from index `d` on.
DESIGN CHOICE: two engines at reset with the same `d` hold equal unwritten registers, where R60 leaves each instance's
(60_exceptions.md R253) unspecified (logs 1, 14; unsafe for a claim that compares two engines). -/
def Engine.atReset (d : Nat) : Engine where
  keybuf := Vector.ofFn fun n => Config.freeByte (d + n)
  blk := Vector.ofFn fun n => Config.freeByte (d + 32 + n)
  iv := Vector.ofFn fun n => Config.freeByte (d + 48 + n)
  rk := Vector.ofFn fun n => Config.freeByte (d + 64 + n)
  nonceLo := Config.freeWord d
  nonceHi := Config.freeWord (d + 1)
  pk := Vector.ofFn fun n => Config.freeWord (d + 2 + n)
  keyValid := false
  errs := false
  ovr := false
  err := 0
  pending := none

/-- A machine built with the tables `T`, right after reset (10_state.md R61, 70_reset_and_hazards.md R271): the
engine at its reset values and idle, the reset input released, and no host statement placed (log 4). DESIGN CHOICE:
the draws start at index 0 in every instance, so the unwritten registers of two instances are equal here (logs 1, 14). -/
def State.resetWith (T : Tables) : State where
  tables := T
  engine := Engine.atReset 0
  rst := false
  program := []
  results := []
  turns := []
  draws := resetDraws

/-- The machine right after reset, with the default tables of 00_scope.md R9. -/
def State.reset : State := State.resetWith defaultTables

end Sys2Proof.Machine
end

