-- ==== Sys2Proof/Machine/Ops.lean ====
section
/-! DEFINITION. The named operations that the meanings share: the byte, word and bit codecs of a byte buffer
(00_scope.md R12 to R15, 20_memory.md R72), how a command ends (R16, 60_exceptions.md R242), free draws, and
the reset input. -/

namespace Sys2Proof.Machine

/-! ### Byte buffers -/

/-- Byte `i` of a byte buffer. -/
def byteAt {n : Nat} (b : Vector Byte n) (i : Nat) : Byte := b.toList.getD i 0

/-- The word that packs four bytes "most significant first" (00_scope.md R14). -/
def packWord (b0 b1 b2 b3 : Byte) : Word :=
  (b0.setWidth 32 <<< 24) ||| (b1.setWidth 32 <<< 16) ||| (b2.setWidth 32 <<< 8) ||| b3.setWidth 32

/-- `be32(b, k)`, word `k` of a byte sequence (00_scope.md R14); also the packing of a register word
(20_memory.md R72). -/
def be32 {n : Nat} (b : Vector Byte n) (k : Nat) : Word :=
  packWord (byteAt b (4 * k)) (byteAt b (4 * k + 1)) (byteAt b (4 * k + 2)) (byteAt b (4 * k + 3))

/-- Byte `o` of a word, counted from the most significant (00_scope.md R14). -/
def wordByte (v : Word) (o : Nat) : Byte := (v >>> (24 - 8 * o)).setWidth 8

/-- `unbe32(w0, w1, w2, w3)`: "writes each word as 4 bytes, most significant first, in the order given"
(00_scope.md R14). -/
def unbe32 (w0 w1 w2 w3 : Word) : Block :=
  Vector.ofFn fun i =>
    wordByte (if i.val / 4 = 0 then w0 else if i.val / 4 = 1 then w1 else if i.val / 4 = 2 then w2 else w3)
      (i.val % 4)

/-- A host write of `v` to word `k` of a buffer: `X[4k..4k+4) = unbe32(v)` (20_memory.md R72). -/
def putWord {n : Nat} (b : Vector Byte n) (k : Nat) (v : Word) : Vector Byte n :=
  Vector.ofFn fun i => if i.val / 4 = k then wordByte v (i.val % 4) else byteAt b i.val

/-- `a XOR b` on blocks, byte-wise (00_scope.md R15). -/
def xorBlock (a b : Block) : Block := Vector.ofFn fun i => byteAt a i.val ^^^ byteAt b i.val

/-- The group reversal `G(b)[4g + o] = b[4(3 - g) + o]` (00_scope.md R15). -/
def groupReverse (b : Block) : Block :=
  Vector.ofFn fun i => byteAt b (4 * (3 - i.val / 4) + i.val % 4)

/-! ### Bits -/

/-- The number whose bit `i`, for `i < n`, is `f i`. -/
def packBits (f : Nat → Bool) : Nat → Nat
  | 0 => 0
  | n + 1 => packBits f n + (f n).toNat * 2 ^ n

/-- The byte whose bit `i` is `f i`. -/
def byteOfBits (f : Nat → Bool) : Byte := BitVec.ofNat 8 (packBits f 8)

/-- The word whose bit `i` is `f i`. -/
def wordOfBits (f : Nat → Bool) : Word := BitVec.ofNat 32 (packBits f 32)

/-- `bit(b, i) = (b[15 - (i div 8)] >> (i mod 8)) & 1` (00_scope.md R12). -/
def blockBit (b : Block) (i : Nat) : Bool := (byteAt b (15 - i / 8)).getLsbD (i % 8)

/-- `fromBits(f)`, "the block whose `bit(., i) = f(i)`" (00_scope.md R12). -/
def blockOfBits (f : Nat → Bool) : Block :=
  Vector.ofFn fun n => byteOfBits fun k => f (8 * (15 - n.val) + k)

/-! ### Engine state -/

/-- `STATUS.BUSY`: "`1` from the issue of a command until its completion" (10_state.md R33), that is while a
word is pending (R46; log 6). -/
def Engine.busy (e : Engine) : Bool := e.pending.isSome

/-- The collapsed `PHASE` (10_state.md R47): all that is left of it between two atomic steps (log 6). -/
inductive Phase where
  | idle
  | running
  deriving DecidableEq, Repr

/-- `PHASE`, collapsed into the completion transition as 10_state.md R47 allows (log 6). -/
def Engine.phase (e : Engine) : Phase := if e.busy then .running else .idle

/-- The number of an error kind in `STATUS.ERR` (60_exceptions.md R241). -/
def ErrorCode.code : ErrorCode → BitVec 4
  | .invalidKeyLength => 1
  | .uninitializedKey => 2
  | .illegalCommand => 3
  | .badArgument => 4

/-- `raise Error(code)` (00_scope.md R16, 60_exceptions.md R242): the engine's one way of reporting an error,
"`STATUS.ERR <- code`; `STATUS.ERRS <- 1`; `STATUS.BUSY <- 0` at completion", nothing else changed. There is no
vector, no saved pc and no return beyond clearing `ERRS` (R246, R247). -/
def Engine.raise (code : ErrorCode) (e : Engine) : Engine :=
  { e with err := code.code, errs := true, pending := none }

/-- `done` (00_scope.md R16): "ends the current command successfully: it writes `STATUS.ERR <- 0`", and the
completion clears `BUSY` (70_reset_and_hazards.md R273). -/
def Engine.done (e : Engine) : Engine :=
  { e with err := 0, pending := none }

/-- A command's end: its engine step answers the engine after it. Nothing but the engine changes. -/
def completeWith (f : Engine → Engine) (s : State) : Host.Outcome State Fault Refusal :=
  .next { s with engine := f s.engine }

/-- The key check of the keyed commands: "if STATUS.KEY_VALID = 0: raise Error(UNINITIALIZED_KEY)"
(10_state.md R34, 42_cipher.md R200), else the command's effect. -/
def Engine.withKey (effect : Engine → Engine) (e : Engine) : Engine :=
  if e.keyValid then effect e else e.raise .uninitializedKey

/-! ### Free draws and reset -/

/-- A free draw (20_memory.md R81, 70_reset_and_hazards.md R270): a fresh value at each use (log 2, 3). -/
def State.draw (s : State) : Word × State := (Config.freeWord s.draws, { s with draws := s.draws + 1 })

/-- Reset is applied: "every piece of state takes its value of 10_state.md rule R61" and a running command "is
abandoned" (70_reset_and_hazards.md R270); the unwritten registers take fresh draws (log 1). -/
def State.assertReset (s : State) : State :=
  { s with engine := Engine.atReset s.draws, rst := true, draws := s.draws + resetDraws }

/-- Reset is released: "After reset the engine is idle and accepts a command" (70_reset_and_hazards.md R271). -/
def State.releaseReset (s : State) : State := { s with rst := false }

end Sys2Proof.Machine
end

