-- ==== Sys2Proof/Machine/Layers.lean ====
section
/-! DEFINITION. The layer primitives (40_layers.md) as pure functions of a block and the tables, and the six
layer commands, which "cannot raise an error once decoded" (R130). -/

namespace Sys2Proof.Machine

/-! ### S-box layer -/

/-- A byte recombined from two look-ups: "`(lowLookup << 4) | highLookup`" (40_layers.md R133). -/
def swapSub (look : Nibble → Nibble) (x : Byte) : Byte :=
  ((look (x.extractLsb' 0 4)).setWidth 8 <<< 4) ||| (look (x.extractLsb' 4 4)).setWidth 8

/-- `SUB(b, r)` (40_layers.md R133). -/
def sub (T : Tables) (b : Block) (r : Nat) : Block :=
  Vector.ofFn fun i => swapSub (sboxAt T r) (byteAt b i.val)

/-- `SUBINV(b, r)` (40_layers.md R134). -/
def subInv (T : Tables) (b : Block) (r : Nat) : Block :=
  Vector.ofFn fun i => swapSub (sboxInvAt T r) (byteAt b i.val)

/-! ### Bit permutations -/

/-- `IPF(b) = fromBits(i -> bit(b, IP_TABLE[i]))` (40_layers.md R137). -/
def ipf (T : Tables) (b : Block) : Block := blockOfBits fun i => blockBit b (ipAt T i)

/-- `FPF(b) = fromBits(i -> bit(b, FP_TABLE[i]))` (40_layers.md R137). -/
def fpf (T : Tables) (b : Block) : Block := blockOfBits fun i => blockBit b (fpAt T i)

/-! ### Linear transform -/

/-- The four words of the linear transform's core (40_layers.md R140). -/
structure Quad where
  x0 : Word
  x1 : Word
  x2 : Word
  x3 : Word
  deriving DecidableEq, Repr

/-- The word core `LTW` (40_layers.md R140), line by line. -/
def ltw (q : Quad) : Quad :=
  let x0 := rotl q.x0 13
  let x2 := rotl q.x2 3
  let x1 := q.x1 ^^^ x0 ^^^ x2
  let x3 := q.x3 ^^^ x2 ^^^ (x0 <<< 3)
  let x1 := rotl x1 1
  let x3 := rotl x3 7
  let x0 := x0 ^^^ x1 ^^^ x3
  let x2 := x2 ^^^ x3 ^^^ (x1 <<< 7)
  ⟨rotl x0 5, x1, rotl x2 22, x3⟩

/-- The inverse word core `LTWI` (40_layers.md R141), line by line. -/
def ltwi (q : Quad) : Quad :=
  let x2 := rotr q.x2 22
  let x0 := rotr q.x0 5
  let x2 := x2 ^^^ q.x3 ^^^ (q.x1 <<< 7)
  let x0 := x0 ^^^ q.x1 ^^^ q.x3
  let x3 := rotr q.x3 7
  let x1 := rotr q.x1 1
  let x3 := x3 ^^^ x2 ^^^ (x0 <<< 3)
  let x1 := x1 ^^^ x0 ^^^ x2
  ⟨rotr x0 13, x1, rotr x2 3, x3⟩

/-- "reading the result as four big-endian 32-bit words in order" (40_layers.md R142). -/
def quadOf (b : Block) : Quad := ⟨be32 b 0, be32 b 1, be32 b 2, be32 b 3⟩

/-- "The four words are then written back big-endian into 16 bytes" (40_layers.md R142). -/
def blockOf (q : Quad) : Block := unbe32 q.x0 q.x1 q.x2 q.x3

/-- `LTF(b)` (40_layers.md R142). -/
def ltf (T : Tables) (b : Block) : Block := ipf T (blockOf (ltw (quadOf (fpf T b))))

/-- `LTI(b)` (40_layers.md R143). -/
def lti (T : Tables) (b : Block) : Block := ipf T (blockOf (ltwi (quadOf (fpf T b))))

/-! ### The commands -/

/-- A layer command: `reg(BLK) <- f(reg(BLK)); done` (40_layers.md R130). -/
def Engine.applyLayer (f : Block → Block) (e : Engine) : Engine := { e with blk := f e.blk }.done

/-- `SBOX` (40_layers.md R133). -/
def execSbox (roundIndex : Nat) (s : State) : Host.Outcome State Fault Refusal :=
  completeWith (Engine.applyLayer fun b => sub s.tables b roundIndex) s

/-- `SBOX_INV` (40_layers.md R134). -/
def execSboxInv (roundIndex : Nat) (s : State) : Host.Outcome State Fault Refusal :=
  completeWith (Engine.applyLayer fun b => subInv s.tables b roundIndex) s

/-- `IP` (40_layers.md R138). -/
def execIp (s : State) : Host.Outcome State Fault Refusal :=
  completeWith (Engine.applyLayer (ipf s.tables)) s

/-- `FP` (40_layers.md R139). -/
def execFp (s : State) : Host.Outcome State Fault Refusal :=
  completeWith (Engine.applyLayer (fpf s.tables)) s

/-- `LT` (40_layers.md R145). -/
def execLt (s : State) : Host.Outcome State Fault Refusal :=
  completeWith (Engine.applyLayer (ltf s.tables)) s

/-- `LT_INV` (40_layers.md R146). -/
def execLtInv (s : State) : Host.Outcome State Fault Refusal :=
  completeWith (Engine.applyLayer (lti s.tables)) s

end Sys2Proof.Machine
end

