-- ==== Sys2Proof/Machine/Operands.lean ====
section
/-! DEFINITION. Every operand form of the commands (30_encoding.md R101): the legal ranges of `ARG` and the
byte buffers that the commands form from their operands (key padding, chunk padding, nonce block). -/

namespace Sys2Proof.Machine

/-- `SETKEY`'s length: legal `1..32` (30_encoding.md R101, 41_key_schedule.md R175). -/
def keyLengthLegal (len : Nat) : Bool := decide (1 ≤ len ∧ len ≤ 32)

/-- `ROUNDKEY`'s round: legal `0..32` (30_encoding.md R101, 41_key_schedule.md R178). -/
def roundLegal (round : Nat) : Bool := decide (round ≤ 32)

/-- `CBC_ENC`'s byte count: legal `1..16` (30_encoding.md R101, 43_cbc.md R223). -/
def chunkLengthLegal (n : Nat) : Bool := decide (1 ≤ n ∧ n ≤ 16)

/-- `PAD(k, len)`: "the first unused byte is set to `0x80`, all following bytes to `0x00`" (41_key_schedule.md
R171). -/
def padKey (k : KeyBuffer) (len : Nat) : KeyBuffer :=
  Vector.ofFn fun i => if i.val < len then byteAt k i.val else if i.val = len then 0x80 else 0x00

/-- `CBC_ENC`'s plaintext: "`p[m] = reg(BLK)[m] if m < n else 0x00`" (43_cbc.md R223). -/
def zeroPad (b : Block) (n : Nat) : Block :=
  Vector.ofFn fun i => if i.val < n then byteAt b i.val else 0x00

/-- `NONCE = (NONCE_HI << 32) | NONCE_LO` (10_state.md R43). -/
def nonceValue (hi lo : Word) : BitVec 64 := (hi.setWidth 64 <<< 32) ||| lo.setWidth 64

/-- The nonce block `NB(N)`: bytes 0..7 are `N` little-endian, bytes 8..15 are zero (43_cbc.md R221). -/
def nonceBlock (n : BitVec 64) : Block :=
  Vector.ofFn fun i => if i.val < 8 then (n >>> (8 * i.val)).setWidth 8 else 0x00

end Sys2Proof.Machine
end

