-- ==== Sys2Proof/Machine/KeySchedule.lean ====
section
/-! DEFINITION. The key schedule (41_key_schedule.md): prekey expansion, the round-key function, and the
commands `SETKEY` and `ROUNDKEY`. -/

namespace Sys2Proof.Machine

/-! ### Prekeys -/

/-- `PK[i] = rotl(PK[i-8] ^ PK[i-5] ^ PK[i-3] ^ PK[i-1] ^ zext_32(i-8) ^ PHI, 11)` for `i = m + 8`, from the
prekeys before it, newest first (41_key_schedule.md R173). -/
def nextPrekey (m : Nat) (newestFirst : List Word) : Word :=
  rotl (newestFirst.getD 7 0 ^^^ newestFirst.getD 4 0 ^^^ newestFirst.getD 2 0 ^^^ newestFirst.getD 0 0
    ^^^ BitVec.ofNat 32 m ^^^ phi) 11

/-- The first `8 + m` prekeys of a padded key, newest first: "Splits the 32-byte key into 8 big-endian 32-bit
words" (41_key_schedule.md R172), then R173 "in increasing `i`". -/
def prekeyList (padded : KeyBuffer) : Nat → List Word
  | 0 => [be32 padded 7, be32 padded 6, be32 padded 5, be32 padded 4,
          be32 padded 3, be32 padded 2, be32 padded 1, be32 padded 0]
  | m + 1 => nextPrekey m (prekeyList padded m) :: prekeyList padded m

/-- `PREKEYS(k, len)`, the 140-word array (41_key_schedule.md R174). -/
def prekeys (k : KeyBuffer) (len : Nat) : Prekeys :=
  Vector.ofFn fun i => (prekeyList (padKey k len) 132).getD (139 - i.val) 0

/-- `PK[i]`. -/
def pkAt (pk : Prekeys) (i : Nat) : Word := pk.toList.getD i 0

/-! ### Round keys -/

/-- The S-box table index of a round key, `(3 - r) mod 8` taken non-negative, for `r` in `0..32`
(41_key_schedule.md R177, R179; 00_scope.md R10). -/
def roundTable (r : Nat) : Nat := (35 - r) % 8

/-- The interleave of `RKF`: byte `c` holds bits `2c` and `2c + 1` of `k0..k3`, "LSB first"
(41_key_schedule.md R177). -/
def interleave (k : Nat → Word) : Block :=
  Vector.ofFn fun c => byteOfBits fun p => (k (p % 4)).getLsbD (2 * c.val + p / 4)

/-- Word `w_m` of the de-interleave: `w_m[2c] = s[c][m]` and `w_m[2c+1] = s[c][4+m]` (41_key_schedule.md
R177). -/
def deinterleave (s : Block) (m : Nat) : Word :=
  wordOfBits fun j => (byteAt s (j / 2)).getLsbD (4 * (j % 2) + m)

/-- `RKF(PK, r)` (41_key_schedule.md R177). -/
def rkf (T : Tables) (pk : Prekeys) (r : Nat) : Block :=
  let s := sub T (interleave fun m => pkAt pk (4 * r + 8 + m)) (roundTable r)
  ipf T (unbe32 (deinterleave s 3) (deinterleave s 2) (deinterleave s 1) (deinterleave s 0))

/-! ### The commands -/

/-- The engine after `SETKEY len` (41_key_schedule.md R175). The round-key cache it invalidates is not in the
state (10_state.md R48; log 7). -/
def Engine.setkey (len : Nat) (e : Engine) : Engine :=
  if keyLengthLegal len then { e with pk := prekeys e.keybuf len, keyValid := true }.done
  else e.raise .invalidKeyLength

/-- The engine after `ROUNDKEY round`, the argument checked before the key (41_key_schedule.md R178). -/
def Engine.roundkey (T : Tables) (round : Nat) (e : Engine) : Engine :=
  if roundLegal round then e.withKey fun e => { e with rk := rkf T e.pk round }.done
  else e.raise .badArgument

/-- `SETKEY` (41_key_schedule.md R175). -/
def execSetkey (len : Nat) (s : State) : Host.Outcome State Fault Refusal :=
  completeWith (Engine.setkey len) s

/-- `ROUNDKEY` (41_key_schedule.md R178). -/
def execRoundkey (round : Nat) (s : State) : Host.Outcome State Fault Refusal :=
  completeWith (Engine.roundkey s.tables round) s

end Sys2Proof.Machine
end

