-- ==== Sys2Proof/Machine/Cipher.lean ====
section
/-! DEFINITION. The block cipher (42_cipher.md): `ENC`, `DEC` and the commands `ENCRYPT` and `DECRYPT`. -/

namespace Sys2Proof.Machine

/-- One round of `ENC`: XOR with the round key, `SUB`, then `LTF`, or in round 31 the XOR with round key 32
(42_cipher.md R200, step 2). -/
def encRound (T : Tables) (pk : Prekeys) (r : Nat) (s : Block) : Block :=
  let x := sub T (xorBlock s (rkf T pk r)) r
  if r = 31 then xorBlock x (rkf T pk 32) else ltf T x

/-- The state after rounds `0 .. n-1` of `ENC` (42_cipher.md R200). -/
def encRounds (T : Tables) (pk : Prekeys) (s : Block) : Nat → Block
  | 0 => s
  | n + 1 => encRound T pk n (encRounds T pk s n)

/-- `ENC(PK, b)` (42_cipher.md R200). -/
def enc (T : Tables) (pk : Prekeys) (b : Block) : Block :=
  groupReverse (fpf T (encRounds T pk (groupReverse (ipf T b)) 32))

/-- One round of `DEC`: `LTI` unless `r = 31`, `SUBINV`, XOR with the round key (42_cipher.md R202). -/
def decRound (T : Tables) (pk : Prekeys) (r : Nat) (s : Block) : Block :=
  let x := if r = 31 then s else lti T s
  xorBlock (subInv T x r) (rkf T pk r)

/-- The state after rounds `n-1` down to `0` of `DEC` (42_cipher.md R202). -/
def decRounds (T : Tables) (pk : Prekeys) (s : Block) : Nat → Block
  | 0 => s
  | n + 1 => decRounds T pk (decRound T pk n s) n

/-- `DEC(PK, c)`, ending `FPF(G(s))` (42_cipher.md R202; 90_conflicts.md C1). -/
def dec (T : Tables) (pk : Prekeys) (c : Block) : Block :=
  fpf T (groupReverse (decRounds T pk (xorBlock (ipf T (groupReverse c)) (rkf T pk 32)) 32))

/-- The engine after `ENCRYPT` (42_cipher.md R200). -/
def Engine.encrypt (T : Tables) : Engine → Engine :=
  Engine.withKey fun e => { e with blk := enc T e.pk e.blk }.done

/-- The engine after `DECRYPT` (42_cipher.md R202). -/
def Engine.decrypt (T : Tables) : Engine → Engine :=
  Engine.withKey fun e => { e with blk := dec T e.pk e.blk }.done

/-- `ENCRYPT` (42_cipher.md R200). -/
def execEncrypt (s : State) : Host.Outcome State Fault Refusal := completeWith (Engine.encrypt s.tables) s

/-- `DECRYPT` (42_cipher.md R202). -/
def execDecrypt (s : State) : Host.Outcome State Fault Refusal := completeWith (Engine.decrypt s.tables) s

end Sys2Proof.Machine
end

