-- ==== Sys2Proof/Machine/Cbc.lean ====
section
/-! DEFINITION. The CBC chaining adapter (43_cbc.md): the commands `CBC_INIT`, `CBC_ENC` and `CBC_DEC`. -/

namespace Sys2Proof.Machine

/-- The engine after `CBC_INIT`: `IV <- ENC(PK, NB(NONCE))` (43_cbc.md R222). -/
def Engine.cbcInit (T : Tables) : Engine → Engine :=
  Engine.withKey fun e => { e with iv := enc T e.pk (nonceBlock (nonceValue e.nonceHi e.nonceLo)) }.done

/-- The engine after `CBC_ENC n`, the argument checked before the key (43_cbc.md R223). -/
def Engine.cbcEnc (T : Tables) (n : Nat) (e : Engine) : Engine :=
  if chunkLengthLegal n then
    e.withKey fun e =>
      let c := enc T e.pk (xorBlock (zeroPad e.blk n) e.iv)
      { e with blk := c, iv := c }.done
  else e.raise .badArgument

/-- The engine after `CBC_DEC`: `BLK <- DEC(PK, BLK) XOR IV`, `IV <-` the ciphertext consumed (43_cbc.md
R224). -/
def Engine.cbcDec (T : Tables) : Engine → Engine :=
  Engine.withKey fun e =>
    { e with blk := xorBlock (dec T e.pk e.blk) e.iv, iv := e.blk }.done

/-- `CBC_INIT` (43_cbc.md R222). -/
def execCbcInit (s : State) : Host.Outcome State Fault Refusal := completeWith (Engine.cbcInit s.tables) s

/-- `CBC_ENC` (43_cbc.md R223). -/
def execCbcEnc (n : Nat) (s : State) : Host.Outcome State Fault Refusal := completeWith (Engine.cbcEnc s.tables n) s

/-- `CBC_DEC` (43_cbc.md R224). -/
def execCbcDec (s : State) : Host.Outcome State Fault Refusal := completeWith (Engine.cbcDec s.tables) s

end Sys2Proof.Machine
end

