-- ==== Sys2Proof/Machine/Dispatch.lean ====
section
/-! DEFINITION. One arm per command: its meaning (30_encoding.md R102). -/

namespace Sys2Proof.Machine

def exec (i : Instr) (s : State) : Host.Outcome State Fault Refusal :=
  match i with
  | .setkey len => Sys2Proof.Machine.execSetkey len s
  | .encrypt => Sys2Proof.Machine.execEncrypt s
  | .decrypt => Sys2Proof.Machine.execDecrypt s
  | .roundkey round => Sys2Proof.Machine.execRoundkey round s
  | .sbox roundIndex => Sys2Proof.Machine.execSbox roundIndex s
  | .sboxInv roundIndex => Sys2Proof.Machine.execSboxInv roundIndex s
  | .ip => Sys2Proof.Machine.execIp s
  | .fp => Sys2Proof.Machine.execFp s
  | .lt => Sys2Proof.Machine.execLt s
  | .ltInv => Sys2Proof.Machine.execLtInv s
  | .cbcInit => Sys2Proof.Machine.execCbcInit s
  | .cbcEnc n => Sys2Proof.Machine.execCbcEnc n s
  | .cbcDec => Sys2Proof.Machine.execCbcDec s

end Sys2Proof.Machine
end

