-- ==== Sys2Proof/Machine/Flags.lean ====
section
/-! DEFINITION. The `STATUS` register (10_state.md R33 to R38) and the constant `INFO` (R39). -/

namespace Sys2Proof.Machine

/-- `STATUS` reads as `zext_32(ERR << 4 | OVR << 3 | ERRS << 2 | KEY_VALID << 1 | BUSY)` (10_state.md R38). -/
def Engine.statusWord (e : Engine) : Word :=
  (e.err.setWidth 32 <<< 4) ||| (BitVec.ofNat 32 e.ovr.toNat <<< 3) ||| (BitVec.ofNat 32 e.errs.toNat <<< 2)
    ||| (BitVec.ofNat 32 e.keyValid.toNat <<< 1) ||| BitVec.ofNat 32 e.busy.toNat

/-- A host write of `v` to `STATUS` while idle: bits 2 and 3 are write-1-to-clear, "other bits ignored"
(10_state.md R35, R36, 20_memory.md R77). -/
def Engine.writeStatus (v : Word) (e : Engine) : Engine :=
  { e with errs := e.errs && !v.getLsbD 2, ovr := e.ovr && !v.getLsbD 3 }

/-- `INFO` "reads `0x00202010` always" (10_state.md R39). -/
def infoWord : Word := 0x00202010

end Sys2Proof.Machine
end

