-- ==== Sys2Proof/Machine/Window.lean ====
section
/-! DEFINITION. The register window (20_memory.md): the register map, the host's reads and writes, and the bus
address of an offset. -/

namespace Sys2Proof.Machine

/-- The register at a window offset (20_memory.md R71); every other offset is reserved. -/
def registerAt (off : Nat) : RegName :=
  if off = 0x000 then .cmd
  else if off = 0x004 then .status
  else if off = 0x008 then .info
  else if 0x010 ≤ off ∧ off ≤ 0x02C then .key ((off - 0x010) / 4)
  else if 0x030 ≤ off ∧ off ≤ 0x03C then .blk ((off - 0x030) / 4)
  else if 0x040 ≤ off ∧ off ≤ 0x04C then .iv ((off - 0x040) / 4)
  else if off = 0x050 then .nonceLo
  else if off = 0x054 then .nonceHi
  else if 0x060 ≤ off ∧ off ≤ 0x06C then .rk ((off - 0x060) / 4)
  else if 0x400 ≤ off ∧ off ≤ 0x62C then .pk ((off - 0x400) / 4)
  else .reserved

/-- The window offset of a register (20_memory.md R71); a reserved register is named by its offset alone, so
`reserved` stands for the first reserved offset. -/
def offsetOf : RegName → Nat
  | .cmd => 0x000
  | .status => 0x004
  | .info => 0x008
  | .key n => 0x010 + 4 * n
  | .blk n => 0x030 + 4 * n
  | .iv n => 0x040 + 4 * n
  | .nonceLo => 0x050
  | .nonceHi => 0x054
  | .rk n => 0x060 + 4 * n
  | .pk i => 0x400 + 4 * i
  | .reserved => 0x00C

/-- The offset of a bus address in the window at `BASE` (20_memory.md R70); none outside it. -/
def windowOffset (addr : Nat) : Option Nat :=
  if addr / 4096 = Config.basePage then some (addr % 4096) else none

/-- The bus address `BASE + off` (20_memory.md R70). -/
def busAddress (off : Nat) : Nat := Config.base + off

/-- What a host read of a register answers, or none where the answer is a free draw: while busy every
register but `STATUS`, `INFO`, `CMD` and the reserved offsets "returns an unspecified value" (20_memory.md R76,
R81). -/
def Engine.readRegister (e : Engine) : RegName → Option Word
  | .cmd => some 0
  | .status => some e.statusWord
  | .info => some infoWord
  | .reserved => some 0
  | .key n => if e.busy then none else some (be32 e.keybuf n)
  | .blk n => if e.busy then none else some (be32 e.blk n)
  | .iv n => if e.busy then none else some (be32 e.iv n)
  | .nonceLo => if e.busy then none else some e.nonceLo
  | .nonceHi => if e.busy then none else some e.nonceHi
  | .rk n => if e.busy then none else some (be32 e.rk n)
  | .pk i => if e.busy then none else some (e.pk.toList.getD i 0)

/-- A host write of `v` to a writable register while idle (20_memory.md R77): a `CMD` write issues the command
word (70_reset_and_hazards.md R272), a `STATUS` write clears flags, a data write stores four bytes. Writes to
read-only registers and reserved offsets have no effect (R75). -/
def Engine.writeIdle (e : Engine) (r : RegName) (v : Word) : Engine :=
  match r with
  | .cmd => { e with pending := some v }
  | .status => e.writeStatus v
  | .info => e
  | .key n => { e with keybuf := putWord e.keybuf n v }
  | .blk n => { e with blk := putWord e.blk n v }
  | .iv n => { e with iv := putWord e.iv n v }
  | .nonceLo => { e with nonceLo := v }
  | .nonceHi => { e with nonceHi := v }
  | .rk _ => e
  | .pk _ => e
  | .reserved => e

/-- The registers a host may write: "`CMD`, `KEY*`, `BLK*`, `IV*`, `NONCE_*`, `STATUS`" (10_state.md R36). -/
def writable : RegName → Bool
  | .cmd => true
  | .status => true
  | .info => false
  | .key _ => true
  | .blk _ => true
  | .iv _ => true
  | .nonceLo => true
  | .nonceHi => true
  | .rk _ => false
  | .pk _ => false
  | .reserved => false

/-- `MemWrite(off, 4, v)` (20_memory.md R77): while busy a write to a writable register only sets `OVR`
(10_state.md R36). -/
def Engine.writeRegister (e : Engine) (r : RegName) (v : Word) : Engine :=
  if !writable r then e
  else if e.busy then { e with ovr := true }
  else e.writeIdle r v

/-- `MemRead(off, 4)` (20_memory.md R76): the value read, and the state after it, which differs only by a free
draw used. While reset is asserted every read "return[s] an unspecified value" (70_reset_and_hazards.md R270;
log 3). -/
def State.readWord (s : State) (off : Nat) : Word × State :=
  if s.rst then s.draw
  else match s.engine.readRegister (registerAt off) with
    | some v => (v, s)
    | none => s.draw

/-- `MemWrite(off, 4, v)` on the whole state: "While reset is asserted the engine ignores host writes"
(70_reset_and_hazards.md R270). -/
def State.writeWord (s : State) (off : Nat) (v : Word) : State :=
  if s.rst then s else { s with engine := s.engine.writeRegister (registerAt off) v }

/-- A read's value becomes "the statement's result" (30_encoding.md R106). -/
def State.record (s : State) (addr : Nat) (v : Word) : State :=
  { s with results := ⟨addr, v⟩ :: s.results }

end Sys2Proof.Machine
end

