-- ==== Sys2Proof/Machine/Turns.lean ====
section
/-! DEFINITION. What an agent does when it moves: the host performs a statement (20_memory.md R74 to R77,
30_encoding.md R106, R107), the engine completes its pending command (70_reset_and_hazards.md R273), the reset
input changes level (R270). -/

namespace Sys2Proof.Machine

/-- The completion of a command word (70_reset_and_hazards.md R273): it "decodes `PENDING`" and "performs the
command's rule in full"; an illegal word "completes with `raise Error(ILLEGAL_COMMAND)`" (30_encoding.md
R104). -/
def completeCommand (w : Word) (s : State) : Host.Outcome State Fault Refusal :=
  match decode w with
  | .ok i => exec i s
  | .error _ => completeWith (Engine.raise .illegalCommand) s

/-- The engine's turn: it completes its pending command, or takes no step when idle ("the engine waits for a
`CMD` write", 70_reset_and_hazards.md R271) or held in reset (R270; log 15). -/
def engineTurn (s : State) : Host.Outcome State Fault Refusal :=
  if s.rst then .next s
  else match s.engine.pending with
    | some w => completeCommand w s
    | none => .next s

/-- One bus transaction of the host. A word access at a multiple of 4 in the window is performed (20_memory.md
R76, R77); a narrower or misaligned one is refused (R74; log 8); one outside the window faults (R70; log 9). -/
def busAccess (a : BusAccess) (s : State) : Host.Outcome State Fault Refusal :=
  match windowOffset a.addr with
  | none => .fault .outsideWindow
  | some off =>
    if a.width ≠ .word then .refused .subWordAccess
    else if off % 4 ≠ 0 then .refused .misalignedAccess
    else match a.access with
      | .read => .next ((s.readWord off).2.record a.addr (s.readWord off).1)
      | .write v => .next (s.writeWord off v)

/-- One `RD STATUS` of `POLL`: repeated "until the value read has bit 0 = 0; the last value read is the
result" (30_encoding.md R107). `s` has the statement taken off its program. -/
def pollStatus (s : State) : State :=
  let (v, t) := s.readWord (offsetOf .status)
  if v.getLsbD 0 then { t with program := .poll :: t.program }
  else t.record (busAddress (offsetOf .status)) v

/-- The host's turn: its next statement, "one per line", in order (30_encoding.md R106); nothing when its
program has ended. -/
def hostTurn (s : State) : Host.Outcome State Fault Refusal :=
  match s.program with
  | [] => .next s
  | .bus a :: rest => busAccess a { s with program := rest }
  | .poll :: rest => .next (pollStatus { s with program := rest })

/-- The turn of the agent named (00_scope.md R17, 70_reset_and_hazards.md R270, R273). -/
def takeTurn (t : Turn) (s : State) : Host.Outcome State Fault Refusal :=
  match t with
  | .host => hostTurn s
  | .engine => engineTurn s
  | .assertReset => .next s.assertReset
  | .releaseReset => .next s.releaseReset

/-- Who moves when no turn is listed: the engine if a command is pending, so that "a pending command always
completes" (70_reset_and_hazards.md R274), else the host (log 5). -/
def defaultTurn (s : State) : Turn := if s.engine.busy then .engine else .host

/-- One step: the next listed turn, or the default one. -/
def nextTurn (s : State) : Host.Outcome State Fault Refusal :=
  match s.turns with
  | t :: rest => takeTurn t { s with turns := rest }
  | [] => takeTurn (defaultTurn s) s

/-- A command word latched in `PENDING` as a `CMD` write latches it (70_reset_and_hazards.md R272), with reset
released and the engine to move next (log 4). -/
def State.latchCommand (s : State) (w : Word) : State :=
  { s with engine := { s.engine with pending := some w }, rst := false, turns := .engine :: s.turns }

end Sys2Proof.Machine
end

