-- ==== Sys2Proof/Machine/Step.lean ====
section
/-! DEFINITION. The machine's one step, and where a command word stands so that the next step runs it. -/

namespace Sys2Proof.Machine

/-- One step of the machine: one agent moves (20_memory.md R79, 70_reset_and_hazards.md R273). -/
def step (s : State) : Host.Outcome State Fault Refusal := nextTurn s

/-- `s` with the command word `w` where the next step takes it from: the engine has no program counter and no
fetch (10_state.md R31), so the word stands latched in `PENDING` with the engine to move next (log 4). -/
def State.withFetchWord (s : State) (nbits w : Nat) : State := s.latchCommand (BitVec.ofNat 32 (w % 2 ^ nbits))

end Sys2Proof.Machine
end

