-- ==== Sys2Proof/Machine/Assembly.lean ====
section
/-! DEFINITION. Host assembly (30_encoding.md R106, R107): the bus transactions each statement stands for, and
the host's duties for a CBC stream (43_cbc.md R225). -/

namespace Sys2Proof.Machine

/-- The offset a `<reg>` names: a register of 20_memory.md R71 or `@<offset>` (30_encoding.md R106). -/
def refOffset : RegRef → Nat
  | .named r => offsetOf r
  | .offset off => off

/-- `WR <reg>, <imm32>` is `MemWrite(offset(reg), 4, imm32)` (30_encoding.md R106). -/
def wrOp (off : Nat) (v : Word) : HostOp := .bus ⟨busAddress off, .word, .write v⟩

/-- `RD <reg>` is `MemRead(offset(reg), 4)` (30_encoding.md R106). -/
def rdOp (off : Nat) : HostOp := .bus ⟨busAddress off, .word, .read⟩

/-- Word `k` of a key of any length, "missing bytes of the last word written as `0x00`" (30_encoding.md
R107). -/
def keyWord (k : List Byte) (n : Nat) : Word :=
  packWord (k.getD (4 * n) 0) (k.getD (4 * n + 1) 0) (k.getD (4 * n + 2) 0) (k.getD (4 * n + 3) 0)

/-- The expansion of a statement into bus transactions (30_encoding.md R106, R107). -/
def expand : HostStmt → List HostOp
  | .wr r v => [wrOp (refOffset r) v]
  | .rd r => [rdOp (refOffset r)]
  | .command i => [wrOp (offsetOf .cmd) (encode i)]
  | .poll => [.poll]
  | .loadblk b => (List.range 4).map fun n => wrOp (offsetOf (.blk n)) (be32 b n)
  | .loadiv b => (List.range 4).map fun n => wrOp (offsetOf (.iv n)) (be32 b n)
  | .loadkey k => (List.range ((k.length + 3) / 4)).map fun n => wrOp (offsetOf (.key n)) (keyWord k n)
  | .loadnonce imm => [wrOp (offsetOf .nonceLo) (imm.extractLsb' 0 32), wrOp (offsetOf .nonceHi) (imm.extractLsb' 32 32)]
  | .readblk => (List.range 4).map fun n => rdOp (offsetOf (.blk n))
  | .readiv => (List.range 4).map fun n => rdOp (offsetOf (.iv n))
  | .readrk => (List.range 4).map fun n => rdOp (offsetOf (.rk n))
  | .clrerr => [wrOp (offsetOf .status) 0x0000000C]

/-- A host program's bus transactions, statement after statement (30_encoding.md R106). -/
def assemble (p : List HostStmt) : List HostOp := p.flatMap expand

/-- The block that holds a chunk's bytes; the bytes of `BLK` past the chunk, which `CBC_ENC n` ignores, are
loaded as zero (43_cbc.md R223; log 12). -/
def chunkBlock (chunk : List Byte) : Block := Vector.ofFn fun i => chunk.getD i.val 0

/-- The host's statements for one chunk: load it, `CBC_ENC n`, wait, read the result (43_cbc.md R225). -/
def encryptChunk (chunk : List Byte) : List HostStmt :=
  [.loadblk (chunkBlock chunk), .command (.cbcEnc chunk.length), .poll, .readblk]

/-- The host's statements for one ciphertext block (43_cbc.md R225). -/
def decryptChunk (c : Block) : List HostStmt := [.loadblk c, .command .cbcDec, .poll, .readblk]

/-- The 16-byte chunks of a byte stream, the last one possibly short (43_cbc.md R223, R225). -/
def chunksOf (data : List Byte) : List (List Byte) :=
  (List.range ((data.length + 15) / 16)).map fun i => (data.drop (16 * i)).take 16

/-- Encryption of a byte stream: "`CBC_INIT` followed by `L div 16` commands `CBC_ENC 16` and, if `L mod 16 !=
0`, one last `CBC_ENC (L mod 16)`", each after loading the chunk and waiting (43_cbc.md R225). -/
def encryptStream (data : List Byte) : List HostStmt :=
  .command .cbcInit :: .poll :: (chunksOf data).flatMap encryptChunk

/-- Decryption: "`CBC_INIT` with the same key and nonce followed by one `CBC_DEC` per ciphertext block"
(43_cbc.md R225). -/
def decryptStream (blocks : List Block) : List HostStmt :=
  .command .cbcInit :: .poll :: blocks.flatMap decryptChunk

end Sys2Proof.Machine
end

