-- ==== Sys2Proof/WellFormed.lean ====
section
/-! DEFINITION. Which commands the encoding can hold (30_encoding.md R100, R101) and which host operations
the bus interface defines (20_memory.md R70, R74). -/

namespace Sys2Proof

/-- The operand of a command that takes one, as an `ARG` value; none for the others (30_encoding.md R101). -/
def Instr.operand? : Instr → Option Nat
  | .setkey len => some len
  | .encrypt => none
  | .decrypt => none
  | .roundkey round => some round
  | .sbox roundIndex => some roundIndex
  | .sboxInv roundIndex => some roundIndex
  | .ip => none
  | .fp => none
  | .lt => none
  | .ltInv => none
  | .cbcInit => none
  | .cbcEnc n => some n
  | .cbcDec => none

/-- An operand fits the 8-bit field `ARG[15:8]` (30_encoding.md R100). A value that a command rejects
(`SETKEY 33`) is well-formed: it decodes, and the command raises its own error (R105). -/
def Instr.wellFormed (i : Instr) : Bool :=
  match i.operand? with
  | some v => decide (v < 256)
  | none => true

/-- `Instr.wellFormed` as a proposition. -/
abbrev Instr.WellFormed (i : Instr) : Prop := i.wellFormed = true

/-- A register index within 20_memory.md R71's ranges; `reserved` names no one register. -/
def RegName.wellFormed : RegName → Bool
  | .cmd => true
  | .status => true
  | .info => true
  | .key n => decide (n < 8)
  | .blk n => decide (n < 4)
  | .iv n => decide (n < 4)
  | .nonceLo => true
  | .nonceHi => true
  | .rk n => decide (n < 4)
  | .pk i => decide (i < 140)
  | .reserved => false

/-- A bus access the interface defines: 32 bits wide, at a multiple of 4 (20_memory.md R74), inside the
4096-byte window (R70). -/
def BusAccess.wellFormed (a : BusAccess) : Bool :=
  a.width == .word && a.addr % 4 == 0 && a.addr / 4096 == Config.basePage

/-- A host operation the bus interface defines. -/
def HostOp.wellFormed : HostOp → Bool
  | .bus a => a.wellFormed
  | .poll => true

/-- A `<reg>` of the host's assembly: a register of 20_memory.md R71, or `@<offset>` with an offset the bus can
access (30_encoding.md R106, 20_memory.md R74). -/
def RegRef.wellFormed : RegRef → Bool
  | .named r => r.wellFormed
  | .offset off => off % 4 == 0 && decide (off < 4096)

/-- A host statement whose operands are in their ranges (30_encoding.md R106, R107). -/
def HostStmt.wellFormed : HostStmt → Bool
  | .wr reg _ => reg.wellFormed
  | .rd reg => reg.wellFormed
  | .command i => i.wellFormed
  | .poll => true
  | .loadblk _ => true
  | .loadiv _ => true
  | .loadkey k => decide (1 ≤ k.length ∧ k.length ≤ 32)
  | .loadnonce _ => true
  | .readblk => true
  | .readiv => true
  | .readrk => true
  | .clrerr => true

end Sys2Proof
end

