-- ==== Sys2Proof/Safety.lean ====
section
/-! DEFINITION. The terms the statements use: which registers a command reads and writes (10_state.md R50), how
a command ends (60_exceptions.md R240, R242), the invariant of every step, legal host programs, and a CBC
stream command by command (43_cbc.md R225). -/

namespace Sys2Proof.Machine

/-! ### Registers of the register-use table -/

/-- The columns of 10_state.md R50's table. -/
inductive DataReg where
  | keybuf
  | pk
  | keyValid
  | blk
  | iv
  | nonce
  | rk
  deriving DecidableEq, Repr

/-- The register holds the same value in two engines. -/
def DataReg.same (d : DataReg) (e e' : Engine) : Prop :=
  match d with
  | .keybuf => e'.keybuf = e.keybuf
  | .pk => e'.pk = e.pk
  | .keyValid => e'.keyValid = e.keyValid
  | .blk => e'.blk = e.blk
  | .iv => e'.iv = e.iv
  | .nonce => e'.nonceHi = e.nonceHi ∧ e'.nonceLo = e.nonceLo
  | .rk => e'.rk = e.rk

/-- The R entries of 10_state.md R50's table. -/
def registersRead : Instr → List DataReg
  | .setkey _ => [.keybuf]
  | .encrypt => [.pk, .keyValid, .blk]
  | .decrypt => [.pk, .keyValid, .blk]
  | .roundkey _ => [.pk, .keyValid]
  | .sbox _ => [.blk]
  | .sboxInv _ => [.blk]
  | .ip => [.blk]
  | .fp => [.blk]
  | .lt => [.blk]
  | .ltInv => [.blk]
  | .cbcInit => [.pk, .keyValid, .nonce]
  | .cbcEnc _ => [.pk, .keyValid, .blk, .iv]
  | .cbcDec => [.pk, .keyValid, .blk, .iv]

/-- The W entries of 10_state.md R50's table: written on success. -/
def registersWritten : Instr → List DataReg
  | .setkey _ => [.pk, .keyValid]
  | .encrypt => [.blk]
  | .decrypt => [.blk]
  | .roundkey _ => [.rk]
  | .sbox _ => [.blk]
  | .sboxInv _ => [.blk]
  | .ip => [.blk]
  | .fp => [.blk]
  | .lt => [.blk]
  | .ltInv => [.blk]
  | .cbcInit => [.iv]
  | .cbcEnc _ => [.blk, .iv]
  | .cbcDec => [.blk, .iv]

/-! ### How a command ends -/

/-- A frame: nothing outside the engine changes, `OVR` does not change, and every register but those listed
keeps its value. The registers are all there is to the window (20_memory.md R70), so this is the frame of the
whole address space. -/
def OnlyWrites (ds : List DataReg) (s t : State) : Prop :=
  t = { s with engine := t.engine } ∧ t.engine.ovr = s.engine.ovr ∧
    ∀ d : DataReg, d ∉ ds → d.same s.engine t.engine

/-- A command ended with `done` (00_scope.md R16): `ERR` is 0, `ERRS` is kept (10_state.md R35), `BUSY` is 0,
and only the registers listed were written. -/
def Succeeds (ds : List DataReg) (s t : State) : Prop :=
  OnlyWrites ds s t ∧ t.engine.err = 0 ∧ t.engine.errs = s.engine.errs ∧ t.engine.busy = false

/-- A command ended with `raise Error(code)` (60_exceptions.md R242): `ERR` is the code, `ERRS` is 1, `BUSY`
is 0, and nothing else changed. -/
def FailsWith (code : BitVec 4) (s t : State) : Prop :=
  OnlyWrites [] s t ∧ t.engine.err = code ∧ t.engine.errs = true ∧ t.engine.busy = false

/-! ### The invariant -/

/-- `ERR` is in `0..4` (10_state.md R37), and with `KEY_VALID = 1` the prekey array "holds a schedule computed by
a successful `SETKEY`" (10_state.md R34). -/
def Engine.Inv (e : Engine) : Prop :=
  e.err.toNat ≤ 4 ∧
    (e.keyValid = true → ∃ (k : KeyBuffer) (len : Nat), 1 ≤ len ∧ len ≤ 32 ∧ e.pk = prekeys k len)

/-- The tables are permutations (00_scope.md R8, R9), the engine's invariant, and: while reset is asserted nothing is
pending and `STATUS` reads its reset value (70_reset_and_hazards.md R270). -/
def State.Inv (s : State) : Prop :=
  s.tables.Valid ∧ s.engine.Inv ∧ (s.rst = true → s.engine.pending = none ∧ s.engine.statusWord = 0)

/-! ### Legal host programs -/

/-- Every bus access the host has still to perform is one the interface defines (20_memory.md R70, R74). -/
def State.HostLegal (s : State) : Prop := ∀ op ∈ s.program, op.wellFormed = true

/-! ### A CBC stream, command by command -/

/-- The state after a host loaded `BLK` while the engine was idle (`LOADBLK`, 30_encoding.md R107). -/
def State.loadBlk (s : State) (b : Block) : State := { s with engine := { s.engine with blk := b } }

/-- `CBC_ENC` for each chunk of a stream in order (43_cbc.md R225): the ciphertext blocks emitted and the state
after the last; none if a command failed. -/
def encryptChunks : List (List Byte) → State → Option (List Block × State)
  | [], s => some ([], s)
  | chunk :: rest, s =>
    match exec (.cbcEnc chunk.length) (s.loadBlk (chunkBlock chunk)) with
    | .next t =>
      if t.engine.err = 0 then
        match encryptChunks rest t with
        | some (cs, u) => some (t.engine.blk :: cs, u)
        | none => none
      else none
    | .fault _ => none
    | .refused _ => none

/-- `CBC_DEC` for each ciphertext block in order (43_cbc.md R225): the plaintext blocks emitted and the state
after the last; none if a command failed. -/
def decryptBlocks : List Block → State → Option (List Block × State)
  | [], s => some ([], s)
  | c :: rest, s =>
    match exec .cbcDec (s.loadBlk c) with
    | .next t =>
      if t.engine.err = 0 then
        match decryptBlocks rest t with
        | some (ps, u) => some (t.engine.blk :: ps, u)
        | none => none
      else none
    | .fault _ => none
    | .refused _ => none

/-- The bytes of a list of blocks, in order. -/
def bytesOf (bs : List Block) : List Byte := bs.flatMap Vector.toList

end Sys2Proof.Machine
end

