-- ==== Sys2Proof/Certificates/Slice0/Obligations.lean ====
section
/-! DEFINITION. The statements for the provers, from the spec's numbered rules. -/

open Sys2Proof Sys2Proof.Machine

/-! ### Encoding (30_encoding.md) -/

/-- 30_encoding.md section 2: no bit of a command's encoding is dropped: every well-formed command, with its
operand at every value `ARG` holds, decodes back from its word. -/
def Obligations.DecodeOfEncodeIsTheCommand : Prop :=
  ∀ i : Instr, i.WellFormed → decode (encode i) = .ok i

/-- 30_encoding.md section 2: a word that decodes is the encoding of the command it decodes to. -/
def Obligations.EncodeOfDecodeIsTheWord : Prop :=
  ∀ (w : Word) (i : Instr), decode w = .ok i → i.WellFormed ∧ encode i = w

/-- 30_encoding.md R103: `decode` answers the command of `OP` with `ARG`, for the rows that take none only
with `ARG = 0`, and ILLEGAL for every other word. The last conjunct, that no two rows of the map match the same word,
is the sentence R103 marks derived from the match and mask columns: the spec's own inference. -/
def Obligations.DecodeIsTotalAndFollowsTheMap : Prop :=
  (∀ w : Word,
    let op := w.toNat % 256
    let arg := w.toNat / 256 % 256
    let rsv := w.toNat / 65536
    (rsv ≠ 0 → ∃ e, decode w = .error e) ∧
    (rsv = 0 →
      (op = 0x01 → decode w = .ok (.setkey arg)) ∧
      (op = 0x04 → decode w = .ok (.roundkey arg)) ∧
      (op = 0x10 → decode w = .ok (.sbox arg)) ∧
      (op = 0x11 → decode w = .ok (.sboxInv arg)) ∧
      (op = 0x21 → decode w = .ok (.cbcEnc arg)) ∧
      (op = 0x02 ∧ arg = 0 → decode w = .ok .encrypt) ∧
      (op = 0x03 ∧ arg = 0 → decode w = .ok .decrypt) ∧
      (op = 0x12 ∧ arg = 0 → decode w = .ok .ip) ∧
      (op = 0x13 ∧ arg = 0 → decode w = .ok .fp) ∧
      (op = 0x14 ∧ arg = 0 → decode w = .ok .lt) ∧
      (op = 0x15 ∧ arg = 0 → decode w = .ok .ltInv) ∧
      (op = 0x20 ∧ arg = 0 → decode w = .ok .cbcInit) ∧
      (op = 0x22 ∧ arg = 0 → decode w = .ok .cbcDec) ∧
      (op ∈ [0x02, 0x03, 0x12, 0x13, 0x14, 0x15, 0x20, 0x22] ∧ arg ≠ 0 → ∃ e, decode w = .error e) ∧
      (op ∉ [0x01, 0x04, 0x10, 0x11, 0x21, 0x02, 0x03, 0x12, 0x13, 0x14, 0x15, 0x20, 0x22] →
        ∃ e, decode w = .error e))) ∧
  ∀ (w : Word) (i j : Instr), (opcodeRow i).selects w → (opcodeRow j).selects w → opcodeRow i = opcodeRow j

/-- 30_encoding.md R102: a word selects a row when `w & mask = match`: the words that decode are exactly those
that some row selects, a word decodes to a command of the row that selects it, and the operand of a row that has
one is the value of bits 15..8. -/
def Obligations.WordsDecodeToTheRowThatSelectsThem : Prop :=
  (∀ (w : Word) (i : Instr), decode w = .ok i →
    (opcodeRow i).selects w ∧ ∀ v, i.operand? = some v → v = w.toNat / 256 % 256) ∧
  ∀ (w : Word) (i : Instr), (opcodeRow i).selects w → ∃ j, decode w = .ok j ∧ opcodeRow j = opcodeRow i

/-- 30_encoding.md section 2: words written out from the patterns of the opcode map, one for each family,
decode to the commands they stand for. -/
def Obligations.WrittenOutWordsDecodeToTheirCommands : Prop :=
  decode 0b00000000000000000010000000000001 = .ok (.setkey 32) ∧
  decode 0b00000000000000000010000000000100 = .ok (.roundkey 32) ∧
  decode 0b00000000000000000000000000000010 = .ok .encrypt ∧
  decode 0b00000000000000001111111100010000 = .ok (.sbox 255) ∧
  decode 0b00000000000000000000000000010101 = .ok .ltInv ∧
  decode 0b00000000000000000000010100100001 = .ok (.cbcEnc 5) ∧
  decode 0b00000000000000010000000000000010 = .error .reservedBits

/-! ### Reset (10_state.md R61, 70_reset_and_hazards.md R270, R271) -/

/-- 10_state.md section 7, 70_reset_and_hazards.md section 1: after reset, whatever tables the machine was built with,
`STATUS` is 0, no command is pending, the phase is idle and reset is released. Of the unwritten registers nothing is
said (R60). `State.reset` has the default tables of 00_scope.md R9. -/
def Obligations.ResetLeavesTheEngineIdleWithStatusZero : Prop :=
  (∀ T : Tables,
    (State.resetWith T).engine.statusWord = 0 ∧ (State.resetWith T).engine.pending = none ∧
      (State.resetWith T).engine.phase = .idle ∧ (State.resetWith T).rst = false ∧ (State.resetWith T).tables = T) ∧
  State.reset = State.resetWith defaultTables

/-- 70_reset_and_hazards.md section 1 (R270): when reset is applied, in any state, `STATUS` becomes 0 and a
running command "is abandoned"; the host's program and results stay. -/
def Obligations.AssertingResetClearsStatusAndAbandonsTheCommand : Prop :=
  ∀ (s : State) (ts : List Turn), s.turns = .assertReset :: ts →
    ∃ t, step s = .next t ∧ t.rst = true ∧ t.engine.statusWord = 0 ∧ t.engine.pending = none ∧
      t.turns = ts ∧ t.program = s.program ∧ t.results = s.results

/-- 70_reset_and_hazards.md sections 1 and 2 (R270, R271): while reset is asserted "the engine ignores host
writes", a read answers a free value, and the engine takes no step; releasing reset changes only the input.
That a read of `INFO` answers a free value too is the model's choice (log 3), and so is that the engine takes no step
(log 15). -/
def Obligations.AccessesUnderResetAreIgnoredOrFree : Prop :=
  (∀ (s : State) (off : Nat) (v : Word), s.rst = true → off < 4096 → off % 4 = 0 →
    busAccess ⟨busAddress off, .word, .write v⟩ s = .next s) ∧
  (∀ (s : State) (off : Nat), s.rst = true → off < 4096 → off % 4 = 0 →
    ∃ t, busAccess ⟨busAddress off, .word, .read⟩ s = .next t ∧
      t = { s with results := ⟨busAddress off, Config.freeWord s.draws⟩ :: s.results, draws := s.draws + 1 }) ∧
  (∀ (s : State) (ts : List Turn), s.rst = true → s.turns = .engine :: ts → step s = .next { s with turns := ts }) ∧
  ∀ (s : State) (ts : List Turn), s.turns = .releaseReset :: ts →
    step s = .next { s with turns := ts, rst := false }

/-! ### The step: who moves, and what runs -/

/-- 70_reset_and_hazards.md section 2 (R273): when a pending word decodes, the engine's turn is `exec` of that
command, at the state with the turn taken off the list; and when no turn is listed, a pending command makes the
turn the engine's (log 5). Reset is not asserted. -/
def Obligations.EngineTurnRunsTheDecodedCommand : Prop :=
  ∀ (s : State) (w : Word) (i : Instr), s.rst = false → s.engine.pending = some w → decode w = .ok i →
    (∀ ts, s.turns = .engine :: ts → step s = exec i { s with turns := ts }) ∧
    (s.turns = [] → step s = exec i s)

/-- 30_encoding.md R104: every word with `RSV != 0`, with an `OP` outside the map, or with a non-zero `ARG` for a
command that takes none, completes with ILLEGAL_COMMAND (code 3) and changes nothing else. -/
def Obligations.IllegalWordsReportIllegalCommand : Prop :=
  ∀ (s : State) (w : Word) (ts : List Turn),
    s.rst = false → s.engine.pending = some w → s.turns = .engine :: ts →
    (w.toNat / 65536 ≠ 0 ∨
      w.toNat % 256 ∉ [0x01, 0x02, 0x03, 0x04, 0x10, 0x11, 0x12, 0x13, 0x14, 0x15, 0x20, 0x21, 0x22] ∨
      (w.toNat % 256 ∈ [0x02, 0x03, 0x12, 0x13, 0x14, 0x15, 0x20, 0x22] ∧ w.toNat / 256 % 256 ≠ 0)) →
    ∃ t, step s = .next t ∧ FailsWith 3 { s with turns := ts } t

/-- 30_encoding.md section 4 (R106), 20_memory.md section 4 (R79): the host's turn performs the next statement of
its program, at the state with the turn and the statement taken; with no turn listed and nothing pending the turn
is the host's (log 5). -/
def Obligations.HostTurnPerformsTheNextStatement : Prop :=
  ∀ (s : State) (a : BusAccess) (ops : List HostOp), s.program = .bus a :: ops →
    (∀ ts, s.turns = .host :: ts → step s = busAccess a { s with turns := ts, program := ops }) ∧
    (s.turns = [] → s.engine.pending = none → step s = busAccess a { s with program := ops })

/-- 30_encoding.md section 4 (R107, `POLL`): a poll that reads `STATUS` with bit 0 = 1 stays the next statement; one
that reads bit 0 = 0 ends, and the value it read is its result. With no turn listed an idle machine polls too; that the
turn is then the host's is the model's choice (log 5). -/
def Obligations.PollRepeatsUntilBusyIsZero : Prop :=
  ∀ (s : State) (ops : List HostOp), s.rst = false → s.program = .poll :: ops →
    (∀ ts, s.turns = .host :: ts →
      (s.engine.busy = true → step s = .next { s with turns := ts }) ∧
      (s.engine.busy = false → step s = .next { s with
        turns := ts, program := ops, results := ⟨Config.base + 4, s.engine.statusWord⟩ :: s.results })) ∧
    (s.turns = [] → s.engine.busy = false → step s = .next { s with
      program := ops, results := ⟨Config.base + 4, s.engine.statusWord⟩ :: s.results })

/-- 70_reset_and_hazards.md sections 1 and 6 (R271, R280), 60_exceptions.md section 5 (R255): an idle engine whose turn
it is waits, and so does a host whose program has ended, whether a command is pending or not. With no turn listed and
nothing pending the turn is the host's (log 5). -/
def Obligations.IdleEngineAndEndedHostWait : Prop :=
  (∀ (s : State) (ts : List Turn), s.engine.pending = none → s.turns = .engine :: ts →
    step s = .next { s with turns := ts }) ∧
  (∀ (s : State) (ts : List Turn), s.program = [] → s.turns = .host :: ts → step s = .next { s with turns := ts }) ∧
  ∀ s : State, s.engine.pending = none → s.turns = [] → s.program = [] → step s = .next s

/-- 70_reset_and_hazards.md section 2 (R273, R274), with the order of moves of log 5, the model's choice: with no turn
listed the step is the engine's turn while a command is pending, which for an illegal word reports ILLEGAL_COMMAND
(30_encoding.md R104), and the host's turn otherwise. -/
def Obligations.WithNoTurnListedThePendingCommandElseTheHostMoves : Prop :=
  ∀ s : State, s.turns = [] →
    (s.engine.busy = true → step s = step { s with turns := [.engine] }) ∧
    (s.engine.busy = false → step s = step { s with turns := [.host] }) ∧
    ∀ w e, s.rst = false → s.engine.pending = some w → decode w = .error e →
      ∃ t, step s = .next t ∧ FailsWith 3 s t

/-- 70_reset_and_hazards.md sections 1 and 2 (R270, R273, R274): whatever interleaving is listed, a legal host program
never stops the machine before, and after at most one step more than there are listed turns the command is no longer
pending: abandoned by a listed reset, or completed. When no reset is listed it is completed: the word latched is the
one performed, on the inputs latched with it. That an exhausted list gives the engine the turn is the model's choice
(log 5). -/
def Obligations.PendingCommandCompletesUnlessAListedResetAbandonsIt : Prop :=
  ∀ (s : State) (w : Word), s.rst = false → s.engine.pending = some w → s.HostLegal →
    (∃ k, k ≤ s.turns.length + 1 ∧ ∃ t, Host.Core.run Sys2Proof.core k s = .next t ∧ t.engine.busy = false) ∧
    (Turn.assertReset ∉ s.turns →
      ∃ k, k ≤ s.turns.length ∧ ∃ u t, Host.Core.run Sys2Proof.core k s = .next u ∧
        u.engine = { s.engine with ovr := u.engine.ovr } ∧
        step u = .next t ∧ completeCommand w { u with turns := u.turns.tail } = .next t ∧ t.engine.busy = false)

/-! ### The register window (20_memory.md) -/

/-- 10_state.md R38: `STATUS` reads as `ERR << 4 | OVR << 3 | ERRS << 2 | KEY_VALID << 1 | BUSY`, bits 31..8 zero, and
its reset value is 0; a write while idle affects only `ERRS` and `OVR`, each cleared by a 1 (R35, R36). -/
def Obligations.StatusReadsItsFieldsAndClearsOnlyItsStickyFlags : Prop :=
  (∀ e : Engine,
    (e.statusWord.getLsbD 0 = e.busy) ∧ (e.statusWord.getLsbD 1 = e.keyValid) ∧
    (e.statusWord.getLsbD 2 = e.errs) ∧ (e.statusWord.getLsbD 3 = e.ovr) ∧
    (∀ b < 4, e.statusWord.getLsbD (4 + b) = e.err.getLsbD b) ∧
    ∀ b, 8 ≤ b → e.statusWord.getLsbD b = false) ∧
  State.reset.engine.statusWord = 0 ∧
  ∀ (s : State) (v : Word), s.rst = false → s.engine.pending = none →
    ∃ t, busAccess ⟨busAddress 0x004, .word, .write v⟩ s = .next t ∧
      t = { s with engine := { s.engine with errs := t.engine.errs, ovr := t.engine.ovr } } ∧
      t.engine.errs = (if v.getLsbD 2 then false else s.engine.errs) ∧
      t.engine.ovr = (if v.getLsbD 3 then false else s.engine.ovr)

/-- 20_memory.md section 1 and 3 (R71, R72, R75, R76), 10_state.md R32, R38, R39: while the engine is idle and out of
reset, a word read at every offset of the window answers what the register map says and changes nothing but the
host's results. A word of a byte buffer holds bytes `4n..4n+3`, the first in bits 31..24. -/
def Obligations.IdleReadAnswersTheRegisterAtTheOffset : Prop :=
  ∀ (s : State) (off : Nat), s.rst = false → s.engine.pending = none → off < 4096 → off % 4 = 0 →
    ∃ v : Word,
      busAccess ⟨busAddress off, .word, .read⟩ s = .next { s with results := ⟨busAddress off, v⟩ :: s.results } ∧
      (off = 0x000 → v = 0) ∧
      (off = 0x004 → v = s.engine.statusWord) ∧
      (off = 0x008 → v = 0x00202010) ∧
      (∀ n < 8, off = 0x010 + 4 * n → ∀ o < 4, v.extractLsb' (24 - 8 * o) 8 = byteAt s.engine.keybuf (4 * n + o)) ∧
      (∀ n < 4, off = 0x030 + 4 * n → ∀ o < 4, v.extractLsb' (24 - 8 * o) 8 = byteAt s.engine.blk (4 * n + o)) ∧
      (∀ n < 4, off = 0x040 + 4 * n → ∀ o < 4, v.extractLsb' (24 - 8 * o) 8 = byteAt s.engine.iv (4 * n + o)) ∧
      (off = 0x050 → v = s.engine.nonceLo) ∧
      (off = 0x054 → v = s.engine.nonceHi) ∧
      (∀ n < 4, off = 0x060 + 4 * n → ∀ o < 4, v.extractLsb' (24 - 8 * o) 8 = byteAt s.engine.rk (4 * n + o)) ∧
      (∀ i : Fin 140, off = 0x400 + 4 * i.val → v = s.engine.pk[i]) ∧
      (off = 0x00C ∨ 0x058 ≤ off ∧ off ≤ 0x05C ∨ 0x070 ≤ off ∧ off ≤ 0x3FC ∨ 0x630 ≤ off → v = 0)

/-- 20_memory.md R81: while `BUSY = 1` a read of a data register or of the prekey window answers a free draw (a
fresh one each time), and `STATUS`, `INFO`, `CMD` and the reserved offsets answer their defined values. -/
def Obligations.BusyReadOfADataRegisterIsAFreeDraw : Prop :=
  ∀ (s : State) (off : Nat), s.rst = false → s.engine.busy = true → off < 4096 → off % 4 = 0 →
    (0x010 ≤ off ∧ off ≤ 0x054 ∨ 0x060 ≤ off ∧ off ≤ 0x06C ∨ 0x400 ≤ off ∧ off ≤ 0x62C →
      busAccess ⟨busAddress off, .word, .read⟩ s = .next { s with
        results := ⟨busAddress off, Config.freeWord s.draws⟩ :: s.results, draws := s.draws + 1 }) ∧
    (¬(0x010 ≤ off ∧ off ≤ 0x054 ∨ 0x060 ≤ off ∧ off ≤ 0x06C ∨ 0x400 ≤ off ∧ off ≤ 0x62C) →
      ∃ v : Word, busAccess ⟨busAddress off, .word, .read⟩ s = .next { s with
        results := ⟨busAddress off, v⟩ :: s.results } ∧
        (off = 0x004 → v = s.engine.statusWord) ∧ (off = 0x008 → v = 0x00202010) ∧
        (off ≠ 0x004 ∧ off ≠ 0x008 → v = 0))

/-- 20_memory.md section 3 (R76, "A read has no side effect"): in every state, idle, busy or under reset, a read
that is performed leaves the engine, the reset input and the host's program as they were. -/
def Obligations.ReadsChangeNoState : Prop :=
  ∀ (s t : State) (addr : Nat) (width : Width), busAccess ⟨addr, width, .read⟩ s = .next t →
    t.engine = s.engine ∧ t.rst = s.rst ∧ t.program = s.program ∧ t.turns = s.turns ∧
      ∃ v, t.results = ⟨addr, v⟩ :: s.results

/-- 20_memory.md R77, with 70_reset_and_hazards.md R272 for `CMD` and 20_memory.md R72 for the data registers: what
a word write does at every offset of the window, while busy and while idle. -/
def Obligations.WriteActsAsTheRegisterMapSays : Prop :=
  ∀ (s : State) (off : Nat) (v : Word), s.rst = false → off < 4096 → off % 4 = 0 →
    ∃ e : Engine, busAccess ⟨busAddress off, .word, .write v⟩ s = .next { s with engine := e } ∧
      (off = 0x008 ∨ off = 0x00C ∨ 0x058 ≤ off → e = s.engine) ∧
      (off ≠ 0x008 ∧ off ≠ 0x00C ∧ off < 0x058 →
        (s.engine.busy = true → e = { s.engine with ovr := true }) ∧
        (s.engine.busy = false →
          (off = 0x000 → e = { s.engine with pending := some v }) ∧
          (off = 0x004 → e = { s.engine with
            errs := if v.getLsbD 2 then false else s.engine.errs
            ovr := if v.getLsbD 3 then false else s.engine.ovr }) ∧
          (∀ n < 8, off = 0x010 + 4 * n → e = { s.engine with keybuf := e.keybuf } ∧
            ∀ j < 32, byteAt e.keybuf j =
              if j / 4 = n then v.extractLsb' (24 - 8 * (j % 4)) 8 else byteAt s.engine.keybuf j) ∧
          (∀ n < 4, off = 0x030 + 4 * n → e = { s.engine with blk := e.blk } ∧
            ∀ j < 16, byteAt e.blk j =
              if j / 4 = n then v.extractLsb' (24 - 8 * (j % 4)) 8 else byteAt s.engine.blk j) ∧
          (∀ n < 4, off = 0x040 + 4 * n → e = { s.engine with iv := e.iv } ∧
            ∀ j < 16, byteAt e.iv j =
              if j / 4 = n then v.extractLsb' (24 - 8 * (j % 4)) 8 else byteAt s.engine.iv j) ∧
          (off = 0x050 → e = { s.engine with nonceLo := v }) ∧
          (off = 0x054 → e = { s.engine with nonceHi := v })))

/-- 20_memory.md section 4 (R79), 70_reset_and_hazards.md R278: a word written to a data register while idle is what
the next read of that offset answers, and every other offset reads as before. That an offset unwritten since reset
reads the same twice is the model's choice: R60 leaves each such read unspecified (log 1). -/
def Obligations.WrittenDataWordReadsBackAndNoOtherWordChanges : Prop :=
  ∀ (s : State) (off off' : Nat) (v : Word), s.rst = false → s.engine.pending = none →
    0x010 ≤ off → off ≤ 0x054 → off % 4 = 0 → off' < 4096 → off' % 4 = 0 →
    ∃ t, busAccess ⟨busAddress off, .word, .write v⟩ s = .next t ∧
      (busAccess ⟨busAddress off, .word, .read⟩ t = .next { t with results := ⟨busAddress off, v⟩ :: s.results }) ∧
      (off' ≠ off → ∃ v', busAccess ⟨busAddress off', .word, .read⟩ s =
          .next { s with results := ⟨busAddress off', v'⟩ :: s.results } ∧
        busAccess ⟨busAddress off', .word, .read⟩ t = .next { t with results := ⟨busAddress off', v'⟩ :: s.results })

/-- 20_memory.md section 3: an 8-bit or 16-bit access, or an access to an offset not a multiple of 4, is refused by the
model (R74). The names, their order (a misaligned 8-bit or 16-bit access is `subWordAccess`), and that the refusal
comes while busy and under reset too, are the model's choice (log 8). -/
def Obligations.SubWordAndMisalignedAccessesAreRefused : Prop :=
  ∀ (s : State) (off : Nat) (a : Access), off < 4096 →
    busAccess ⟨busAddress off, .byte, a⟩ s = .refused .subWordAccess ∧
    busAccess ⟨busAddress off, .half, a⟩ s = .refused .subWordAccess ∧
    (off % 4 ≠ 0 → busAccess ⟨busAddress off, .word, a⟩ s = .refused .misalignedAccess)

/-- 20_memory.md section 1 (R70): the window is the 4096 bytes at `BASE`; that an access outside it ends in a named
fault is the model's choice (log 9). -/
def Obligations.AccessesOutsideTheWindowFault : Prop :=
  ∀ (s : State) (addr : Nat) (width : Width) (a : Access),
    addr < Config.base ∨ Config.base + 4096 ≤ addr →
    busAccess ⟨addr, width, a⟩ s = .fault .outsideWindow

/-- 20_memory.md section 3 (R74, R78), 70_reset_and_hazards.md R274: a machine whose host performs only legal
accesses never stops: in every state, whoever moves, the step answers a next state, and what is left of the host's
program is legal. -/
def Obligations.LegalHostProgramsNeverStopTheMachine : Prop :=
  ∀ s : State, s.HostLegal → ∃ t, step s = .next t ∧ t.HostLegal

/-! ### Host assembly (30_encoding.md R106, R107) -/

/-- 30_encoding.md section 4 (R106, R107) with 20_memory.md R74: every statement with operands in their ranges stands
for accesses the bus interface defines, so a host that performs an assembled program never stops the machine. -/
def Obligations.AssembledStatementsAreLegalAccesses : Prop :=
  ∀ p : List HostStmt, (∀ st ∈ p, st.wellFormed = true) → ∀ op ∈ assemble p, op.wellFormed = true

/-- 30_encoding.md section 4 (R107) with 20_memory.md R72: performed by an idle engine out of reset, `LOADBLK`, `LOADIV`
and `LOADNONCE` put their operand into the register and change nothing else. -/
def Obligations.LoadStatementsFillTheirRegister : Prop :=
  ∀ (s : State) (b : Block) (imm : BitVec 64) (ops : List HostOp) (ts : List Turn),
    s.rst = false → s.engine.pending = none →
    (s.program = expand (.loadblk b) ++ ops → s.turns = List.replicate 4 .host ++ ts →
      Host.Core.run Sys2Proof.core 4 s =
        .next { s with engine := { s.engine with blk := b }, program := ops, turns := ts }) ∧
    (s.program = expand (.loadiv b) ++ ops → s.turns = List.replicate 4 .host ++ ts →
      Host.Core.run Sys2Proof.core 4 s =
        .next { s with engine := { s.engine with iv := b }, program := ops, turns := ts }) ∧
    (s.program = expand (.loadnonce imm) ++ ops → s.turns = List.replicate 2 .host ++ ts →
      Host.Core.run Sys2Proof.core 2 s = .next { s with
        engine := { s.engine with nonceLo := imm.setWidth 32, nonceHi := (imm >>> 32).setWidth 32 }
        program := ops
        turns := ts })

/-- 30_encoding.md section 4 (R107): performed by an idle engine out of reset, `LOADKEY k` for a key of `L` bytes makes
`KEYBUF[0..L)` the key, "missing bytes of the last word written as `0x00`", and changes nothing else. -/
def Obligations.LoadkeyFillsTheKeyBytes : Prop :=
  ∀ (s : State) (k : List Byte) (ops : List HostOp) (ts : List Turn),
    s.rst = false → s.engine.pending = none → 1 ≤ k.length → k.length ≤ 32 →
    s.program = expand (.loadkey k) ++ ops → s.turns = List.replicate ((k.length + 3) / 4) .host ++ ts →
    ∃ kb : KeyBuffer, Host.Core.run Sys2Proof.core ((k.length + 3) / 4) s =
        .next { s with engine := { s.engine with keybuf := kb }, program := ops, turns := ts } ∧
      ∀ n < 32, byteAt kb n =
        if n < 4 * ((k.length + 3) / 4) then k.getD n 0 else byteAt s.engine.keybuf n

/-! ### Layer commands (40_layers.md) -/

/-- 40_layers.md R133: `SBOX` replaces each byte by the two look-ups in table `roundIndex mod 8`, the low nibble's
look-up in the high nibble of the result; it needs no key and raises no error; nothing else changes. -/
def Obligations.SboxCommandSubstitutesAndSwapsNibbles : Prop :=
  ∀ (s : State) (r : Nat), ∃ t, exec (.sbox r) s = .next t ∧ Succeeds [.blk] s t ∧
    ∀ n < 16, (byteAt t.engine.blk n).toNat =
      16 * ((s.tables.sbox.get (Fin.ofNat 8 r)).get (Fin.ofNat 16 (byteAt s.engine.blk n).toNat)).toNat +
        ((s.tables.sbox.get (Fin.ofNat 8 r)).get (Fin.ofNat 16 ((byteAt s.engine.blk n).toNat / 16))).toNat

/-- 40_layers.md R134 with R132: `SBOX_INV` does the same with the inverse table, in every state; where the tables are
permutations (00_scope.md R8) the forward table takes the result's high nibble to the operand's low nibble, and its low
nibble to the operand's high nibble. -/
def Obligations.SboxInvCommandLooksUpTheInverseTable : Prop :=
  ∀ (s : State) (r : Nat), ∃ t, exec (.sboxInv r) s = .next t ∧ Succeeds [.blk] s t ∧ (s.tables.Valid →
    ∀ n < 16,
      ((s.tables.sbox.get (Fin.ofNat 8 r)).get (Fin.ofNat 16 ((byteAt t.engine.blk n).toNat / 16))).toNat =
        (byteAt s.engine.blk n).toNat % 16 ∧
      ((s.tables.sbox.get (Fin.ofNat 8 r)).get (Fin.ofNat 16 (byteAt t.engine.blk n).toNat)).toNat =
        (byteAt s.engine.blk n).toNat / 16)

/-- 40_layers.md section 1 (R134): for all permutation tables, `SUBINV(SUB(b, r), r) = b` and
`SUB(SUBINV(b, r), r) = b` for every `b` and `r`. -/
def Obligations.SubstitutionAndItsInverseCancel : Prop :=
  ∀ (T : Tables) (b : Block) (r : Nat), T.Valid → subInv T (sub T b r) r = b ∧ sub T (subInv T b r) r = b

/-- 40_layers.md R138 with R137: `IP` sets bit `i` of `BLK` to bit `IP_TABLE[i]` of its old value, bit `i` being bit
`i mod 8` of byte `15 - i div 8`; nothing else changes. -/
def Obligations.IpCommandPermutesTheBits : Prop :=
  ∀ s : State, ∃ t, exec .ip s = .next t ∧ Succeeds [.blk] s t ∧
    ∀ i : Fin 128, (byteAt t.engine.blk (15 - i.val / 8)).getLsbD (i.val % 8) =
      (byteAt s.engine.blk (15 - (s.tables.ip[i]).val / 8)).getLsbD ((s.tables.ip[i]).val % 8)

/-- 40_layers.md section 2 (R139, R137, R136): `FP` completes in every state and changes only `BLK`; where `IP_TABLE` is
a permutation, bit `IP_TABLE[i]` of the new `BLK` is bit `i` of the old one (`FP_TABLE[IP_TABLE[i]] = i`). -/
def Obligations.FpCommandPermutesTheBits : Prop :=
  ∀ s : State, ∃ t, exec .fp s = .next t ∧ Succeeds [.blk] s t ∧ (s.tables.Valid →
    ∀ i : Fin 128, (byteAt t.engine.blk (15 - (s.tables.ip[i]).val / 8)).getLsbD ((s.tables.ip[i]).val % 8) =
      (byteAt s.engine.blk (15 - i.val / 8)).getLsbD (i.val % 8))

/-- 40_layers.md section 2: with the default `IP_TABLE` (00_scope.md R9, 40_layers.md R135, which the spec takes from
general knowledge), `IP` moves bit `32 * (i mod 4) + (i div 4)` to bit `i` and `FP` moves bit
`4 * (i mod 32) + (i div 32)` to bit `i`. -/
def Obligations.DefaultTablesPermuteTheBitsByTheirFormulas : Prop :=
  ∀ s : State, s.tables = defaultTables → ∃ t u, exec .ip s = .next t ∧ exec .fp s = .next u ∧
    ∀ i < 128,
      (byteAt t.engine.blk (15 - i / 8)).getLsbD (i % 8) =
        (byteAt s.engine.blk (15 - (32 * (i % 4) + i / 4) / 8)).getLsbD ((32 * (i % 4) + i / 4) % 8) ∧
      (byteAt u.engine.blk (15 - i / 8)).getLsbD (i % 8) =
        (byteAt s.engine.blk (15 - (4 * (i % 32) + i / 32) / 8)).getLsbD ((4 * (i % 32) + i / 32) % 8)

/-- 40_layers.md section 2: for all permutation tables, bit `i` of `IPF(b)` is bit `IP_TABLE[i]` of `b` (R137), bit
`IP_TABLE[i]` of `FPF(b)` is bit `i` of `b` (R137 with R136, `FP_TABLE[IP_TABLE[i]] = i`), and each function undoes the
other: the properties R137 marks derived, the spec's own inference. -/
def Obligations.BitPermutationsFollowTheTableAndCancel : Prop :=
  ∀ (T : Tables) (b : Block), T.Valid →
    (∀ i : Fin 128, blockBit (ipf T b) i = blockBit b (T.ip[i]).val) ∧
    (∀ i : Fin 128, blockBit (fpf T b) (T.ip[i]).val = blockBit b i) ∧
    fpf T (ipf T b) = b ∧ ipf T (fpf T b) = b

/-- 40_layers.md R145 with R140 and R142: `LT` applies `FPF`, the word core's steps on the four big-endian words, and
`IPF`; nothing else changes. Rotations are the library's `BitVec.rotateLeft`. -/
def Obligations.LtCommandMixesTheFourWords : Prop :=
  ∀ s : State, ∃ t, exec .lt s = .next t ∧ Succeeds [.blk] s t ∧
    let f := fpf s.tables s.engine.blk
    let x0 := (be32 f 0).rotateLeft 13
    let x2 := (be32 f 2).rotateLeft 3
    let x1 := (be32 f 1 ^^^ x0 ^^^ x2).rotateLeft 1
    let x3 := (be32 f 3 ^^^ x2 ^^^ (x0 <<< 3)).rotateLeft 7
    let y0 := (x0 ^^^ x1 ^^^ x3).rotateLeft 5
    let y2 := (x2 ^^^ x3 ^^^ (x1 <<< 7)).rotateLeft 22
    t.engine.blk = ipf s.tables (unbe32 y0 x1 y2 x3)

/-- 40_layers.md section 3 (R146, R143): `LT_INV` applies `FPF`, the inverse word core and `IPF`; nothing else changes.
The core's steps are R141's, which the spec marks as its own inference ("derived: by inverting each line"). -/
def Obligations.LtInvCommandAppliesTheInverseCore : Prop :=
  ∀ s : State, ∃ t, exec .ltInv s = .next t ∧ Succeeds [.blk] s t ∧
    let f := fpf s.tables s.engine.blk
    let x2 := (be32 f 2).rotateRight 22 ^^^ be32 f 3 ^^^ (be32 f 1 <<< 7)
    let x0 := (be32 f 0).rotateRight 5 ^^^ be32 f 1 ^^^ be32 f 3
    let x3 := (be32 f 3).rotateRight 7 ^^^ x2 ^^^ (x0 <<< 3)
    let x1 := (be32 f 1).rotateRight 1 ^^^ x0 ^^^ x2
    t.engine.blk = ipf s.tables (unbe32 (x0.rotateRight 13) x1 (x2.rotateRight 3) x3)

/-- 40_layers.md R143, R141: for all permutation tables the linear transform and its inverse cancel, both ways, and
so do their word cores. -/
def Obligations.LinearTransformAndItsInverseCancel : Prop :=
  (∀ q : Quad, ltwi (ltw q) = q ∧ ltw (ltwi q) = q) ∧
  ∀ (T : Tables) (b : Block), T.Valid → lti T (ltf T b) = b ∧ ltf T (lti T b) = b

/-- 40_layers.md section 3: `LTF` and `LTI` are linear over GF(2) (R144, which the spec marks derived). -/
def Obligations.LinearTransformIsLinear : Prop :=
  ∀ (T : Tables) (a b : Block),
    ltf T (xorBlock a b) = xorBlock (ltf T a) (ltf T b) ∧ ltf T (Vector.replicate 16 0) = Vector.replicate 16 0 ∧
    lti T (xorBlock a b) = xorBlock (lti T a) (lti T b) ∧ lti T (Vector.replicate 16 0) = Vector.replicate 16 0

/-! ### Key schedule (41_key_schedule.md) -/

/-- 41_key_schedule.md R175 with R171 to R174: `SETKEY len` for `1 <= len <= 32` sets `KEY_VALID` and rewrites all 140
prekeys: the first eight are the big-endian words of the padded key, each later one follows the recurrence; nothing
else changes. With any other `len` it reports INVALID_KEY_LENGTH (1) and the previous prekeys and `KEY_VALID` stay. -/
def Obligations.SetkeyExpandsThePaddedKey : Prop :=
  ∀ (s : State) (len : Nat),
    (1 ≤ len → len ≤ 32 →
      ∃ t, exec (.setkey len) s = .next t ∧ Succeeds [.pk, .keyValid] s t ∧ t.engine.keyValid = true ∧
        (∀ n < 32, ((pkAt t.engine.pk (n / 4)).extractLsb' (24 - 8 * (n % 4)) 8 : Byte) =
          if n < len then byteAt s.engine.keybuf n else if n = len then 0x80 else 0x00) ∧
        ∀ i, 8 ≤ i → i < 140 → pkAt t.engine.pk i =
          (pkAt t.engine.pk (i - 8) ^^^ pkAt t.engine.pk (i - 5) ^^^ pkAt t.engine.pk (i - 3) ^^^
            pkAt t.engine.pk (i - 1) ^^^ BitVec.ofNat 32 (i - 8) ^^^ 0x9e3779b9#32).rotateLeft 11) ∧
    (len = 0 ∨ 32 < len → ∃ t, exec (.setkey len) s = .next t ∧ FailsWith 1 s t)

/-- 41_key_schedule.md section 1 (R175, "bytes `KEYBUF[len..32)` are not read, whatever they hold"; R170): two engines
whose key buffers agree on the first `len` bytes get the same prekeys. -/
def Obligations.SetkeyReadsOnlyTheKeyBytes : Prop :=
  ∀ (s s' : State) (len : Nat), 1 ≤ len → len ≤ 32 →
    (∀ n < len, byteAt s.engine.keybuf n = byteAt s'.engine.keybuf n) →
    ∃ t t', exec (.setkey len) s = .next t ∧ exec (.setkey len) s' = .next t' ∧ t.engine.pk = t'.engine.pk

/-- 41_key_schedule.md section 1 (R180, "padding byte `0x80` must be present and must affect the schedule"): a key of
fewer than 32 bytes, padded, gives other prekeys than the same bytes followed by zero bytes up to 32. -/
def Obligations.PaddingByteAffectsTheSchedule : Prop :=
  ∀ (s s' : State) (len : Nat), 1 ≤ len → len < 32 →
    (∀ n < len, byteAt s.engine.keybuf n = byteAt s'.engine.keybuf n) →
    (∀ n, len ≤ n → n < 32 → byteAt s'.engine.keybuf n = 0) →
    ∃ t t', exec (.setkey len) s = .next t ∧ exec (.setkey 32) s' = .next t' ∧ t.engine.pk ≠ t'.engine.pk

/-- 41_key_schedule.md R178 with R177: with a key set, `ROUNDKEY round` for `round <= 32` writes `RK` with the
interleaved prekeys `4r+8..4r+11`, substituted by table `(3 - r) mod 8`, de-interleaved in reversed group order and
permuted by `IPF`; nothing else changes. A larger `round` reports BAD_ARGUMENT (4), a missing key UNINITIALIZED_KEY
(2). -/
def Obligations.RoundkeyCommandDerivesTheRoundKey : Prop :=
  ∀ (s : State) (r : Nat),
    (r ≤ 32 → s.engine.keyValid = true →
      ∃ t, exec (.roundkey r) s = .next t ∧ Succeeds [.rk] s t ∧
        ∃ buf d : Block,
          let sb := sub s.tables buf ((3 - (r : Int)) % 8).toNat
          (∀ c < 16, ∀ p < 8, (byteAt buf c).getLsbD p =
            (pkAt s.engine.pk (4 * r + 8 + p % 4)).getLsbD (2 * c + p / 4)) ∧
          (∀ m < 4, ∀ c < 16, (be32 d (3 - m)).getLsbD (2 * c) = (byteAt sb c).getLsbD m ∧
            (be32 d (3 - m)).getLsbD (2 * c + 1) = (byteAt sb c).getLsbD (4 + m)) ∧
          t.engine.rk = ipf s.tables d) ∧
    (32 < r → ∃ t, exec (.roundkey r) s = .next t ∧ FailsWith 4 s t) ∧
    (r ≤ 32 → s.engine.keyValid = false → ∃ t, exec (.roundkey r) s = .next t ∧ FailsWith 2 s t)

/-! ### Block cipher (42_cipher.md) -/

/-- 42_cipher.md R200: with a key set, `ENCRYPT` replaces `BLK` by the last state of the 32 rounds, between the initial
permutation and group reversal and their undoing; nothing else changes. The reversal is written out byte by byte
(00_scope.md R15, `G(b)[4g + o] = b[4(3 - g) + o]`). Without a key it reports UNINITIALIZED_KEY (2). -/
def Obligations.EncryptCommandRunsTheThirtyTwoRounds : Prop :=
  ∀ s : State,
    (s.engine.keyValid = true →
      ∃ t, exec .encrypt s = .next t ∧ Succeeds [.blk] s t ∧
        ∃ x : Nat → Block,
          (∀ n < 16, byteAt (x 0) n = byteAt (ipf s.tables s.engine.blk) (4 * (3 - n / 4) + n % 4)) ∧
          (∀ r < 31, x (r + 1) = ltf s.tables (sub s.tables (xorBlock (x r) (rkf s.tables s.engine.pk r)) r)) ∧
          x 32 = xorBlock (sub s.tables (xorBlock (x 31) (rkf s.tables s.engine.pk 31)) 31)
            (rkf s.tables s.engine.pk 32) ∧
          ∀ n < 16, byteAt t.engine.blk n = byteAt (fpf s.tables (x 32)) (4 * (3 - n / 4) + n % 4)) ∧
    (s.engine.keyValid = false → ∃ t, exec .encrypt s = .next t ∧ FailsWith 2 s t)

/-- 42_cipher.md R202: with a key set, `DECRYPT` runs the mirror: round 31 without the inverse linear transform, then
rounds 30 down to 0, and ends `FPF(G(s))`; nothing else changes. The two group reversals are the blocks `g` and `h`,
written out byte by byte (00_scope.md R15, `G(b)[4g + o] = b[4(3 - g) + o]`). Without a key it reports UNINITIALIZED_KEY (2). -/
def Obligations.DecryptCommandRunsTheRoundsInReverse : Prop :=
  ∀ s : State,
    (s.engine.keyValid = true →
      ∃ t, exec .decrypt s = .next t ∧ Succeeds [.blk] s t ∧
        ∃ (x : Nat → Block) (g h : Block),
          (∀ n < 16, byteAt g n = byteAt s.engine.blk (4 * (3 - n / 4) + n % 4)) ∧
          (∀ n < 16, byteAt h n = byteAt (x 0) (4 * (3 - n / 4) + n % 4)) ∧
          x 32 = xorBlock (ipf s.tables g) (rkf s.tables s.engine.pk 32) ∧
          x 31 = xorBlock (subInv s.tables (x 32) 31) (rkf s.tables s.engine.pk 31) ∧
          (∀ r < 31, x r = xorBlock (subInv s.tables (lti s.tables (x (r + 1))) r) (rkf s.tables s.engine.pk r)) ∧
          t.engine.blk = fpf s.tables h) ∧
    (s.engine.keyValid = false → ∃ t, exec .decrypt s = .next t ∧ FailsWith 2 s t)

/-- 42_cipher.md (R203): for all permutation tables and every prekey array, `DEC(PK, ENC(PK, b)) = b` and
`ENC(PK, DEC(PK, c)) = c`; and as host commands, `ENCRYPT` then `DECRYPT` restores `BLK`. That it holds for all
permutation tables is the sentence R203 marks derived, every prekey array (not only a schedule) is this model's
inference, and for a `BLK` unwritten since reset the commands' result rests on log 16. -/
def Obligations.DecryptionInvertsEncryption : Prop :=
  (∀ (T : Tables) (pk : Prekeys) (b : Block), T.Valid → dec T pk (enc T pk b) = b ∧ enc T pk (dec T pk b) = b) ∧
  ∀ s : State, s.tables.Valid → s.engine.keyValid = true →
    ∃ t u, exec .encrypt s = .next t ∧ exec .decrypt t = .next u ∧ u.engine.blk = s.engine.blk

/-! ### CBC adapter (43_cbc.md) -/

/-- 43_cbc.md R222 with R221: with a key set, `CBC_INIT` writes `IV` with the encryption of the nonce block, whose
bytes 0..7 are the 64-bit nonce little-endian and whose other bytes are zero; nothing else changes. Without a key it
reports UNINITIALIZED_KEY (2). -/
def Obligations.CbcInitEncryptsTheNonceBlock : Prop :=
  ∀ s : State,
    (s.engine.keyValid = true →
      ∃ t, exec .cbcInit s = .next t ∧ Succeeds [.iv] s t ∧
        ∃ nb : Block, t.engine.iv = enc s.tables s.engine.pk nb ∧
          ∀ n < 16, (byteAt nb n).toNat =
            if n < 8 then (s.engine.nonceHi.toNat * 2 ^ 32 + s.engine.nonceLo.toNat) / 2 ^ (8 * n) % 256 else 0) ∧
    (s.engine.keyValid = false → ∃ t, exec .cbcInit s = .next t ∧ FailsWith 2 s t)

/-- 43_cbc.md R223: with a key set, `CBC_ENC n` for `1 <= n <= 16` writes `BLK` and `IV` with the encryption of the
chunk, its bytes from `n` on taken as zero, XOR the old `IV`; nothing else changes. Any other `n` reports BAD_ARGUMENT
(4), a missing key UNINITIALIZED_KEY (2). -/
def Obligations.CbcEncChainsAndEmitsTheCipherBlock : Prop :=
  ∀ (s : State) (n : Nat),
    (1 ≤ n → n ≤ 16 → s.engine.keyValid = true →
      ∃ t, exec (.cbcEnc n) s = .next t ∧ Succeeds [.blk, .iv] s t ∧ t.engine.iv = t.engine.blk ∧
        ∃ x : Block, t.engine.blk = enc s.tables s.engine.pk x ∧
          ∀ m < 16, byteAt x m = (if m < n then byteAt s.engine.blk m else 0x00) ^^^ byteAt s.engine.iv m) ∧
    (n = 0 ∨ 16 < n → ∃ t, exec (.cbcEnc n) s = .next t ∧ FailsWith 4 s t) ∧
    (1 ≤ n → n ≤ 16 → s.engine.keyValid = false → ∃ t, exec (.cbcEnc n) s = .next t ∧ FailsWith 2 s t)

/-- 43_cbc.md R224: with a key set, `CBC_DEC` writes `BLK` with the decryption of `BLK` XOR the old `IV`, and `IV` with
the ciphertext block consumed; nothing else changes. Without a key it reports UNINITIALIZED_KEY (2). -/
def Obligations.CbcDecUnchainsAndKeepsTheCipherBlock : Prop :=
  ∀ s : State,
    (s.engine.keyValid = true →
      ∃ t, exec .cbcDec s = .next t ∧ Succeeds [.blk, .iv] s t ∧ t.engine.iv = s.engine.blk ∧
        ∀ m < 16, byteAt t.engine.blk m =
          byteAt (dec s.tables s.engine.pk s.engine.blk) m ^^^ byteAt s.engine.iv m) ∧
    (s.engine.keyValid = false → ∃ t, exec .cbcDec s = .next t ∧ FailsWith 2 s t)

/-- 43_cbc.md section 2 (R223, "the bytes `BLK[n..16)` are ignored whatever they hold"): two machines that agree on the
tables, the prekeys, the chain state and the chunk's `n` bytes emit the same block. -/
def Obligations.CbcEncIgnoresBytesPastTheChunk : Prop :=
  ∀ (s s' : State) (n : Nat), 1 ≤ n → n ≤ 16 → s.engine.keyValid = true → s'.engine.keyValid = true →
    s.tables = s'.tables → s.engine.pk = s'.engine.pk → s.engine.iv = s'.engine.iv →
    (∀ m < n, byteAt s.engine.blk m = byteAt s'.engine.blk m) →
    ∃ t t', exec (.cbcEnc n) s = .next t ∧ exec (.cbcEnc n) s' = .next t' ∧ t.engine.blk = t'.engine.blk ∧
      t.engine.iv = t'.engine.iv

/-- 43_cbc.md (R226): for every byte sequence, of any length, and all permutation tables, encrypting its chunks and
decrypting the blocks emitted, each after a `CBC_INIT` with the same key and nonce, reproduces the bytes, followed only
by the zero padding of the last block. Every command of both streams succeeds, the two `CBC_INIT` included. That an
unwritten nonce reads the same both times, and the result then, rest on logs 1 and 16. -/
def Obligations.CbcStreamDecryptsToItsBytes : Prop :=
  ∀ (s : State) (data : List Byte), s.tables.Valid → s.engine.keyValid = true →
    ∃ s0 cs s1 s2 ps s3,
      exec .cbcInit s = .next s0 ∧ s0.engine.err = 0 ∧ encryptChunks (chunksOf data) s0 = some (cs, s1) ∧
      exec .cbcInit s1 = .next s2 ∧ s2.engine.err = 0 ∧ decryptBlocks cs s2 = some (ps, s3) ∧
      ∃ pad, pad < 16 ∧ bytesOf ps = data ++ List.replicate pad 0

/-! ### Errors and register use (60_exceptions.md, 10_state.md R50) -/

/-- 60_exceptions.md R244 with R241: the code a command word reports is the first that applies: ILLEGAL_COMMAND (3),
then the command's range check (1 or 4), then UNINITIALIZED_KEY (2); 0 when none applies. The layer commands raise
none. -/
def Obligations.ReportedCodeIsTheFirstThatApplies : Prop :=
  ∀ (w : Word) (s : State), ∃ t, completeCommand w s = .next t ∧
    (∀ e, decode w = .error e → t.engine.err = 3) ∧
    ∀ i, decode w = .ok i → t.engine.err =
      match i with
      | .setkey len => if len = 0 ∨ 32 < len then 1 else 0
      | .roundkey round => if 32 < round then 4 else if s.engine.keyValid = false then 2 else 0
      | .cbcEnc n => if n = 0 ∨ 16 < n then 4 else if s.engine.keyValid = false then 2 else 0
      | .encrypt => if s.engine.keyValid = false then 2 else 0
      | .decrypt => if s.engine.keyValid = false then 2 else 0
      | .cbcInit => if s.engine.keyValid = false then 2 else 0
      | .cbcDec => if s.engine.keyValid = false then 2 else 0
      | .sbox _ => 0
      | .sboxInv _ => 0
      | .ip => 0
      | .fp => 0
      | .lt => 0
      | .ltInv => 0

/-- 60_exceptions.md R240, 70_reset_and_hazards.md R274: every command word, in every state, completes: with success,
having written only its own registers, or with exactly one error code, and then nothing but `STATUS` was written. The engine never refuses a word. -/
def Obligations.EveryCommandWordCompletesWithOneResult : Prop :=
  ∀ (w : Word) (s : State), ∃ t, completeCommand w s = .next t ∧
    ((∃ i, decode w = .ok i ∧ Succeeds (registersWritten i) s t) ∨ FailsWith 1 s t ∨ FailsWith 2 s t ∨ FailsWith 3 s t ∨ FailsWith 4 s t)

/-- 60_exceptions.md R242: whatever command word completes with an error, `ERRS` is 1, `BUSY` is 0, and every other
register, `OVR` among them, is unchanged. -/
def Obligations.FailedCommandsChangeOnlyStatus : Prop :=
  ∀ (w : Word) (s t : State), completeCommand w s = .next t → t.engine.err ≠ 0 →
    t = { s with engine := { s.engine with err := t.engine.err, errs := true, pending := none } }

/-- 10_state.md section 6 (R50, which the spec marks derived): a command leaves every register its table row does not
mark W as it was, and writes nothing but `STATUS` when it raises an error; what it writes, and whether it succeeds,
depends only on the registers its row marks R and the constant tables. -/
def Obligations.CommandsUseOnlyTheRegistersOfTheirRow : Prop :=
  (∀ (i : Instr) (s t : State), exec i s = .next t →
    OnlyWrites (if t.engine.err = 0 then registersWritten i else []) s t) ∧
  ∀ (i : Instr) (s s' t t' : State), exec i s = .next t → exec i s' = .next t' →
    s.tables = s'.tables → (∀ d ∈ registersRead i, d.same s.engine s'.engine) →
    t.engine.err = t'.engine.err ∧ (t.engine.err = 0 → ∀ d ∈ registersWritten i, d.same t.engine t'.engine)

/-! ### Whole-machine rules -/

/-- 95_test_vectors.md section 4, 00_scope.md R8, 10_state.md R34, R37: every step keeps: the tables are permutations;
`ERR` is in `0..4`; with `KEY_VALID = 1` the prekeys are the schedule of some key of 1..32 bytes; under reset nothing is
pending and `STATUS` is 0. -/
def Obligations.EveryStepKeepsTheInvariant : Prop :=
  ∀ s t : State, s.Inv → step s = .next t → t.Inv

/-- The invariant holds at reset (10_state.md section 7), of a machine built with any permutation tables, and of
`State.reset` with its default tables (40_layers.md sections 1 and 2). -/
def Obligations.ResetMeetsTheInvariant : Prop :=
  (∀ T : Tables, T.Valid → (State.resetWith T).Inv) ∧ State.reset.Inv

/-- 10_state.md section 5 (R49): the tables are "unaffected by reset and by every command": no step changes them, and
`exec` answers no state with other tables. That they stand in the state is the model's form (log 11). -/
def Obligations.NoStepChangesTheTables : Prop :=
  (∀ s t : State, step s = .next t → t.tables = s.tables) ∧
  ∀ (i : Instr) (s t : State), exec i s = .next t → t.tables = s.tables

/-- 10_state.md R34: `KEY_VALID` is "Set to `1` only by a successful `SETKEY`" and "cleared only by reset", over every
step of the machine, whoever moves. -/
def Obligations.KeyValidIsSetBySetkeyAndClearedByReset : Prop :=
  ∀ s t : State, step s = .next t →
    (s.engine.keyValid = true → t.engine.keyValid = false → ∃ ts, s.turns = .assertReset :: ts) ∧
    (s.engine.keyValid = false → t.engine.keyValid = true →
      ∃ w len, s.engine.pending = some w ∧ decode w = .ok (.setkey len) ∧ 1 ≤ len ∧ len ≤ 32 ∧
        t.engine.err = 0 ∧ t.engine.pending = none)

/-- 10_state.md sections 3 and 4 (R44, R45), 41_key_schedule.md R176: over every step, whoever moves, the prekeys change
only when reset is applied or a `SETKEY` of legal length completes with success, and `RK` only when reset is applied or
a `ROUNDKEY` completes with success. So no host access writes either. -/
def Obligations.PrekeysAndRoundKeyChangeOnlyByTheirCommands : Prop :=
  ∀ s t : State, step s = .next t →
    (t.engine.pk ≠ s.engine.pk → (∃ ts, s.turns = .assertReset :: ts) ∨
      ∃ w len, s.engine.pending = some w ∧ decode w = .ok (.setkey len) ∧ 1 ≤ len ∧ len ≤ 32 ∧
        t.engine.err = 0 ∧ t.engine.pending = none) ∧
    (t.engine.rk ≠ s.engine.rk → (∃ ts, s.turns = .assertReset :: ts) ∨
      ∃ w r, s.engine.pending = some w ∧ decode w = .ok (.roundkey r) ∧ r ≤ 32 ∧ s.engine.keyValid = true ∧
        t.engine.err = 0 ∧ t.engine.pending = none)

/-- 70_reset_and_hazards.md section 2 (R272, R273), 20_memory.md R84: while a command is pending, a step that is not its
completion and applies no reset leaves every input and output register as it was, so "a running command never sees a
change of its inputs": only `OVR` of the engine can change. -/
def Obligations.RunningCommandsNeverSeeTheirInputsChange : Prop :=
  ∀ s t : State, step s = .next t → s.engine.busy = true → t.engine.busy = true →
    t.engine = { s.engine with ovr := t.engine.ovr } ∧ (s.engine.ovr = true → t.engine.ovr = true)
end

