-- ==== Sys2Proof/Laws/State.lean ====
section
/-! SUPPORT. One lemma per field for each shared update of the state, true by definition. -/

namespace Sys2Proof.Machine

/-! ### `raise Error(code)` -/

@[simp] theorem Engine.raise_keybuf (c : ErrorCode) (e : Engine) : (e.raise c).keybuf = e.keybuf := rfl
@[simp] theorem Engine.raise_blk (c : ErrorCode) (e : Engine) : (e.raise c).blk = e.blk := rfl
@[simp] theorem Engine.raise_iv (c : ErrorCode) (e : Engine) : (e.raise c).iv = e.iv := rfl
@[simp] theorem Engine.raise_nonceLo (c : ErrorCode) (e : Engine) : (e.raise c).nonceLo = e.nonceLo := rfl
@[simp] theorem Engine.raise_nonceHi (c : ErrorCode) (e : Engine) : (e.raise c).nonceHi = e.nonceHi := rfl
@[simp] theorem Engine.raise_rk (c : ErrorCode) (e : Engine) : (e.raise c).rk = e.rk := rfl
@[simp] theorem Engine.raise_pk (c : ErrorCode) (e : Engine) : (e.raise c).pk = e.pk := rfl
@[simp] theorem Engine.raise_keyValid (c : ErrorCode) (e : Engine) : (e.raise c).keyValid = e.keyValid := rfl
@[simp] theorem Engine.raise_errs (c : ErrorCode) (e : Engine) : (e.raise c).errs = true := rfl
@[simp] theorem Engine.raise_ovr (c : ErrorCode) (e : Engine) : (e.raise c).ovr = e.ovr := rfl
@[simp] theorem Engine.raise_err (c : ErrorCode) (e : Engine) : (e.raise c).err = c.code := rfl
@[simp] theorem Engine.raise_pending (c : ErrorCode) (e : Engine) : (e.raise c).pending = none := rfl

/-! ### `done` -/

@[simp] theorem Engine.done_keybuf (e : Engine) : (e.done).keybuf = e.keybuf := rfl
@[simp] theorem Engine.done_blk (e : Engine) : (e.done).blk = e.blk := rfl
@[simp] theorem Engine.done_iv (e : Engine) : (e.done).iv = e.iv := rfl
@[simp] theorem Engine.done_nonceLo (e : Engine) : (e.done).nonceLo = e.nonceLo := rfl
@[simp] theorem Engine.done_nonceHi (e : Engine) : (e.done).nonceHi = e.nonceHi := rfl
@[simp] theorem Engine.done_rk (e : Engine) : (e.done).rk = e.rk := rfl
@[simp] theorem Engine.done_pk (e : Engine) : (e.done).pk = e.pk := rfl
@[simp] theorem Engine.done_keyValid (e : Engine) : (e.done).keyValid = e.keyValid := rfl
@[simp] theorem Engine.done_errs (e : Engine) : (e.done).errs = e.errs := rfl
@[simp] theorem Engine.done_ovr (e : Engine) : (e.done).ovr = e.ovr := rfl
@[simp] theorem Engine.done_err (e : Engine) : (e.done).err = 0 := rfl
@[simp] theorem Engine.done_pending (e : Engine) : (e.done).pending = none := rfl

/-! ### A write of `STATUS` -/

@[simp] theorem Engine.writeStatus_keybuf (v : Word) (e : Engine) : (e.writeStatus v).keybuf = e.keybuf := rfl
@[simp] theorem Engine.writeStatus_blk (v : Word) (e : Engine) : (e.writeStatus v).blk = e.blk := rfl
@[simp] theorem Engine.writeStatus_iv (v : Word) (e : Engine) : (e.writeStatus v).iv = e.iv := rfl
@[simp] theorem Engine.writeStatus_nonceLo (v : Word) (e : Engine) : (e.writeStatus v).nonceLo = e.nonceLo := rfl
@[simp] theorem Engine.writeStatus_nonceHi (v : Word) (e : Engine) : (e.writeStatus v).nonceHi = e.nonceHi := rfl
@[simp] theorem Engine.writeStatus_rk (v : Word) (e : Engine) : (e.writeStatus v).rk = e.rk := rfl
@[simp] theorem Engine.writeStatus_pk (v : Word) (e : Engine) : (e.writeStatus v).pk = e.pk := rfl
@[simp] theorem Engine.writeStatus_keyValid (v : Word) (e : Engine) : (e.writeStatus v).keyValid = e.keyValid := rfl
@[simp] theorem Engine.writeStatus_errs (v : Word) (e : Engine) : (e.writeStatus v).errs = (e.errs && !v.getLsbD 2) := rfl
@[simp] theorem Engine.writeStatus_ovr (v : Word) (e : Engine) : (e.writeStatus v).ovr = (e.ovr && !v.getLsbD 3) := rfl
@[simp] theorem Engine.writeStatus_err (v : Word) (e : Engine) : (e.writeStatus v).err = e.err := rfl
@[simp] theorem Engine.writeStatus_pending (v : Word) (e : Engine) : (e.writeStatus v).pending = e.pending := rfl

/-! ### Free draws, results, reset, the latched command -/

@[simp] theorem State.draw_state_engine (s : State) : (s.draw.2).engine = s.engine := rfl
@[simp] theorem State.draw_state_tables (s : State) : (s.draw.2).tables = s.tables := rfl
@[simp] theorem State.draw_state_rst (s : State) : (s.draw.2).rst = s.rst := rfl
@[simp] theorem State.draw_state_program (s : State) : (s.draw.2).program = s.program := rfl
@[simp] theorem State.draw_state_results (s : State) : (s.draw.2).results = s.results := rfl
@[simp] theorem State.draw_state_turns (s : State) : (s.draw.2).turns = s.turns := rfl
@[simp] theorem State.draw_state_draws (s : State) : (s.draw.2).draws = s.draws + 1 := rfl

@[simp] theorem State.draw_value (s : State) : s.draw.1 = Config.freeWord s.draws := rfl

@[simp] theorem State.record_engine (s : State) (a : Nat) (v : Word) : (s.record a v).engine = s.engine := rfl
@[simp] theorem State.record_tables (s : State) (a : Nat) (v : Word) : (s.record a v).tables = s.tables := rfl
@[simp] theorem State.record_rst (s : State) (a : Nat) (v : Word) : (s.record a v).rst = s.rst := rfl
@[simp] theorem State.record_program (s : State) (a : Nat) (v : Word) : (s.record a v).program = s.program := rfl
@[simp] theorem State.record_results (s : State) (a : Nat) (v : Word) : (s.record a v).results = ⟨a, v⟩ :: s.results := rfl
@[simp] theorem State.record_turns (s : State) (a : Nat) (v : Word) : (s.record a v).turns = s.turns := rfl
@[simp] theorem State.record_draws (s : State) (a : Nat) (v : Word) : (s.record a v).draws = s.draws := rfl

@[simp] theorem State.assertReset_engine (s : State) : (s.assertReset).engine = Engine.atReset s.draws := rfl
@[simp] theorem State.assertReset_tables (s : State) : (s.assertReset).tables = s.tables := by simp only [State.assertReset]
@[simp] theorem State.assertReset_rst (s : State) : (s.assertReset).rst = true := rfl
@[simp] theorem State.assertReset_program (s : State) : (s.assertReset).program = s.program := by simp only [State.assertReset]
@[simp] theorem State.assertReset_results (s : State) : (s.assertReset).results = s.results := by simp only [State.assertReset]
@[simp] theorem State.assertReset_turns (s : State) : (s.assertReset).turns = s.turns := by simp only [State.assertReset]
@[simp] theorem State.assertReset_draws (s : State) : (s.assertReset).draws = s.draws + resetDraws := rfl

@[simp] theorem State.releaseReset_engine (s : State) : (s.releaseReset).engine = s.engine := rfl
@[simp] theorem State.releaseReset_tables (s : State) : (s.releaseReset).tables = s.tables := rfl
@[simp] theorem State.releaseReset_rst (s : State) : (s.releaseReset).rst = false := rfl
@[simp] theorem State.releaseReset_program (s : State) : (s.releaseReset).program = s.program := rfl
@[simp] theorem State.releaseReset_results (s : State) : (s.releaseReset).results = s.results := rfl
@[simp] theorem State.releaseReset_turns (s : State) : (s.releaseReset).turns = s.turns := rfl
@[simp] theorem State.releaseReset_draws (s : State) : (s.releaseReset).draws = s.draws := rfl

@[simp] theorem State.latchCommand_engine (s : State) (w : Word) : (s.latchCommand w).engine = { s.engine with pending := some w } := rfl
@[simp] theorem State.latchCommand_tables (s : State) (w : Word) : (s.latchCommand w).tables = s.tables := rfl
@[simp] theorem State.latchCommand_rst (s : State) (w : Word) : (s.latchCommand w).rst = false := rfl
@[simp] theorem State.latchCommand_program (s : State) (w : Word) : (s.latchCommand w).program = s.program := rfl
@[simp] theorem State.latchCommand_results (s : State) (w : Word) : (s.latchCommand w).results = s.results := rfl
@[simp] theorem State.latchCommand_turns (s : State) (w : Word) : (s.latchCommand w).turns = .engine :: s.turns := rfl
@[simp] theorem State.latchCommand_draws (s : State) (w : Word) : (s.latchCommand w).draws = s.draws := rfl

/-! ### Reset with given tables -/

@[simp] theorem State.resetWith_tables (T : Tables) : (State.resetWith T).tables = T := rfl
@[simp] theorem State.resetWith_engine (T : Tables) : (State.resetWith T).engine = Engine.atReset 0 := rfl
@[simp] theorem State.resetWith_rst (T : Tables) : (State.resetWith T).rst = false := rfl
@[simp] theorem State.resetWith_program (T : Tables) : (State.resetWith T).program = [] := rfl
@[simp] theorem State.resetWith_results (T : Tables) : (State.resetWith T).results = [] := rfl
@[simp] theorem State.resetWith_turns (T : Tables) : (State.resetWith T).turns = [] := rfl
@[simp] theorem State.resetWith_draws (T : Tables) : (State.resetWith T).draws = resetDraws := rfl

/-! ### The engine at reset -/

@[simp] theorem Engine.atReset_keyValid (d : Nat) : (Engine.atReset d).keyValid = false := rfl
@[simp] theorem Engine.atReset_errs (d : Nat) : (Engine.atReset d).errs = false := rfl
@[simp] theorem Engine.atReset_ovr (d : Nat) : (Engine.atReset d).ovr = false := rfl
@[simp] theorem Engine.atReset_err (d : Nat) : (Engine.atReset d).err = 0 := rfl
@[simp] theorem Engine.atReset_pending (d : Nat) : (Engine.atReset d).pending = none := rfl

end Sys2Proof.Machine
end

