-- ==== Sys2Proof/Laws/Bytes.lean ====
section
/-! SUPPORT. The byte, word and bit codecs (00_scope.md R12 to R15): what each one answers at a byte or a bit,
and when two buffers are equal. -/

namespace Sys2Proof.Machine

/-! ### Bytes of a buffer -/

theorem byteAt_eq_getElem {n : Nat} (b : Vector Byte n) {i : Nat} (h : i < n) : byteAt b i = b[i] := by
  simp [byteAt, h]

@[simp] theorem byteAt_ofFn {n : Nat} (f : Fin n → Byte) {i : Nat} (h : i < n) :
    byteAt (Vector.ofFn f) i = f ⟨i, h⟩ := by
  simp [byteAt_eq_getElem _ h]

/-- Two buffers are equal when their bytes are. -/
theorem buffer_ext {n : Nat} {a b : Vector Byte n} (h : ∀ i < n, byteAt a i = byteAt b i) : a = b := by
  ext1 i hi
  simpa [byteAt_eq_getElem _ hi] using h i hi

theorem byteAt_xorBlock (a b : Block) {i : Nat} (h : i < 16) :
    byteAt (xorBlock a b) i = byteAt a i ^^^ byteAt b i := by
  simp [xorBlock, h]

theorem byteAt_groupReverse (b : Block) {i : Nat} (h : i < 16) :
    byteAt (groupReverse b) i = byteAt b (4 * (3 - i / 4) + i % 4) := by
  simp [groupReverse, h]

theorem byteAt_putWord {n : Nat} (b : Vector Byte n) (k : Nat) (v : Word) {i : Nat} (h : i < n) :
    byteAt (putWord b k v) i = if i / 4 = k then wordByte v (i % 4) else byteAt b i := by
  simp [putWord, h]

/-- The group reversal is its own inverse (00_scope.md R15). -/
@[simp] theorem groupReverse_groupReverse (b : Block) : groupReverse (groupReverse b) = b := by
  apply buffer_ext
  intro i hi
  rw [byteAt_groupReverse _ hi, byteAt_groupReverse _ (by omega)]
  congr 1
  omega

/-- XOR with the same block twice cancels. -/
@[simp] theorem xorBlock_xorBlock_self (a b : Block) : xorBlock (xorBlock a b) b = a := by
  apply buffer_ext
  intro i hi
  rw [byteAt_xorBlock _ _ hi, byteAt_xorBlock _ _ hi, BitVec.xor_assoc, BitVec.xor_self, BitVec.xor_zero]

/-! ### Bytes of a word -/

theorem getLsbD_wordByte (v : Word) (o j : Nat) :
    (wordByte v o).getLsbD j = (decide (j < 8) && v.getLsbD (24 - 8 * o + j)) := by
  simp [wordByte]

theorem wordByte_eq_extract (v : Word) (o : Nat) : wordByte v o = v.extractLsb' (24 - 8 * o) 8 := by
  ext j hj
  simp [wordByte]

/-- Bit `j` of a packed word is bit `j mod 8` of the byte `3 - j div 8` (00_scope.md R14). -/
theorem getLsbD_packWord (b : Nat → Byte) {j : Nat} (h : j < 32) :
    (packWord (b 0) (b 1) (b 2) (b 3)).getLsbD j = (b (3 - j / 8)).getLsbD (j % 8) := by
  simp only [packWord, BitVec.getLsbD_or, BitVec.getLsbD_shiftLeft, BitVec.getLsbD_setWidth]
  interval_cases j <;> simp

theorem getLsbD_be32 {n : Nat} (b : Vector Byte n) (k : Nat) {j : Nat} (h : j < 32) :
    (be32 b k).getLsbD j = (byteAt b (4 * k + (3 - j / 8))).getLsbD (j % 8) :=
  getLsbD_packWord (fun o => byteAt b (4 * k + o)) h

/-- The bytes of a register word are the buffer's bytes (20_memory.md R72). -/
theorem wordByte_be32 {n : Nat} (b : Vector Byte n) (k : Nat) {o : Nat} (h : o < 4) :
    wordByte (be32 b k) o = byteAt b (4 * k + o) := by
  ext j hj
  rw [← BitVec.getLsbD_eq_getElem, ← BitVec.getLsbD_eq_getElem, getLsbD_wordByte, getLsbD_be32 _ _ (by omega)]
  have h1 : 3 - (24 - 8 * o + j) / 8 = o := by omega
  have h2 : (24 - 8 * o + j) % 8 = j := by omega
  simp [h1, h2, hj]

/-- A word is determined by its four bytes. -/
theorem word_ext {v w : Word} (h : ∀ o < 4, wordByte v o = wordByte w o) : v = w := by
  ext j hj
  have := congrArg (fun x => x.getLsbD (j % 8)) (h (3 - j / 8) (by omega))
  have e : 24 - 8 * (3 - j / 8) + j % 8 = j := by omega
  simp only [getLsbD_wordByte, e] at this
  simpa only [Nat.mod_lt j (show 8 > 0 by decide), decide_true, Bool.true_and, BitVec.getLsbD_eq_getElem hj]
    using this

theorem byteAt_unbe32 (w : Nat → Word) {i : Nat} (h : i < 16) :
    byteAt (unbe32 (w 0) (w 1) (w 2) (w 3)) i = wordByte (w (i / 4)) (i % 4) := by
  simp only [unbe32, byteAt_ofFn _ h]
  have : i / 4 < 4 := by omega
  interval_cases i / 4 <;> rfl

/-- Reading word `k` back from `unbe32` (00_scope.md R14). -/
theorem be32_unbe32 (w : Nat → Word) {k : Nat} (h : k < 4) :
    be32 (unbe32 (w 0) (w 1) (w 2) (w 3)) k = w k := by
  apply word_ext
  intro o ho
  rw [wordByte_be32 _ _ ho, byteAt_unbe32 w (by omega)]
  have h1 : (4 * k + o) / 4 = k := by omega
  have h2 : (4 * k + o) % 4 = o := by omega
  rw [h1, h2]

/-- Writing back the four words read from a block gives the block (00_scope.md R14). -/
@[simp] theorem unbe32_be32 (b : Block) : unbe32 (be32 b 0) (be32 b 1) (be32 b 2) (be32 b 3) = b := by
  apply buffer_ext
  intro i hi
  rw [byteAt_unbe32 (be32 b) hi, wordByte_be32 _ _ (by omega)]
  congr 1
  omega

/-- A word written to a buffer reads back (20_memory.md R72). -/
theorem be32_putWord_same {n : Nat} (b : Vector Byte n) (k : Nat) (v : Word) (h : 4 * k + 4 ≤ n) :
    be32 (putWord b k v) k = v := by
  apply word_ext
  intro o ho
  rw [wordByte_be32 _ _ ho, byteAt_putWord _ _ _ (by omega), if_pos (by omega)]
  congr 1
  omega

/-- A word written to a buffer leaves every other word alone (20_memory.md R72). -/
theorem be32_putWord_other {n : Nat} (b : Vector Byte n) {k j : Nat} (v : Word) (h : 4 * j + 4 ≤ n) (hne : j ≠ k) :
    be32 (putWord b k v) j = be32 b j := by
  apply word_ext
  intro o ho
  rw [wordByte_be32 _ _ ho, wordByte_be32 _ _ ho, byteAt_putWord _ _ _ (by omega), if_neg (by omega)]

/-! ### Bits -/

theorem packBits_lt (f : Nat → Bool) (n : Nat) : packBits f n < 2 ^ n := by
  induction n with
  | zero => simp [packBits]
  | succ n ih =>
    simp only [packBits, Nat.pow_succ]
    cases f n <;> simp <;> omega

/-- Bit `i` of the packed number is `f i`. -/
theorem testBit_packBits (f : Nat → Bool) (n i : Nat) :
    (packBits f n).testBit i = (decide (i < n) && f i) := by
  induction n with
  | zero => simp [packBits]
  | succ n ih =>
    have hlt := packBits_lt f n
    have e : packBits f (n + 1) = 2 ^ n * (f n).toNat + packBits f n := by
      simp [packBits, Nat.mul_comm, Nat.add_comm]
    rw [e, Nat.testBit_two_pow_mul_add _ hlt, ih]
    by_cases h1 : i < n
    · simp [h1, Nat.lt_succ_of_lt h1]
    · by_cases h2 : i = n
      · subst h2
        cases f i <;> simp
      · have : ¬ i < n + 1 := by omega
        have h3 : i - n ≠ 0 := by omega
        have h4 : Nat.testBit 1 (i - n) = false := by
          rw [Nat.testBit_eq_decide_div_mod_eq]
          have : 1 / 2 ^ (i - n) = 0 := Nat.div_eq_of_lt (Nat.one_lt_two_pow h3)
          simp [this]
        cases f n <;> simp [h1, this, h4]

theorem getLsbD_byteOfBits (f : Nat → Bool) {i : Nat} (h : i < 8) : (byteOfBits f).getLsbD i = f i := by
  rw [byteOfBits, BitVec.getLsbD_ofNat, testBit_packBits]
  simp [h]

theorem getLsbD_wordOfBits (f : Nat → Bool) {i : Nat} (h : i < 32) : (wordOfBits f).getLsbD i = f i := by
  rw [wordOfBits, BitVec.getLsbD_ofNat, testBit_packBits]
  simp [h]

/-- `bit(fromBits(f), i) = f(i)` (00_scope.md R12). -/
theorem blockBit_blockOfBits (f : Nat → Bool) {i : Nat} (h : i < 128) : blockBit (blockOfBits f) i = f i := by
  simp only [blockBit, blockOfBits, byteAt_ofFn _ (show 15 - i / 8 < 16 by omega)]
  rw [getLsbD_byteOfBits _ (Nat.mod_lt _ (by decide))]
  congr 1
  omega

/-- A block is determined by its 128 bits (00_scope.md R12). -/
theorem block_ext_bits {a b : Block} (h : ∀ i < 128, blockBit a i = blockBit b i) : a = b := by
  apply buffer_ext
  intro n hn
  ext j hj
  have := h (8 * (15 - n) + j) (by omega)
  have h1 : 15 - (8 * (15 - n) + j) / 8 = n := by omega
  have h2 : (8 * (15 - n) + j) % 8 = j := by omega
  simpa [blockBit, h1, h2, BitVec.getLsbD_eq_getElem hj] using this

theorem blockBit_xorBlock (a b : Block) (i : Nat) :
    blockBit (xorBlock a b) i = (blockBit a i ^^ blockBit b i) := by
  simp [blockBit, byteAt_xorBlock a b (show 15 - i / 8 < 16 by omega)]

end Sys2Proof.Machine
end

