-- ==== Sys2Proof/Laws/Exec.lean ====
section
/-! SUPPORT. Every command as one engine function: what `exec` and the completion of a command word answer. -/

namespace Sys2Proof.Machine

/-- The engine after a command. -/
def engineAfter (T : Tables) : Instr → Engine → Engine
  | .setkey len => Engine.setkey len
  | .encrypt => Engine.encrypt T
  | .decrypt => Engine.decrypt T
  | .roundkey round => Engine.roundkey T round
  | .sbox r => Engine.applyLayer fun b => sub T b r
  | .sboxInv r => Engine.applyLayer fun b => subInv T b r
  | .ip => Engine.applyLayer (ipf T)
  | .fp => Engine.applyLayer (fpf T)
  | .lt => Engine.applyLayer (ltf T)
  | .ltInv => Engine.applyLayer (lti T)
  | .cbcInit => Engine.cbcInit T
  | .cbcEnc n => Engine.cbcEnc T n
  | .cbcDec => Engine.cbcDec T

/-- Every command answers a next state that differs from the old one in the engine only. -/
theorem exec_eq (i : Instr) (s : State) : exec i s = .next { s with engine := engineAfter s.tables i s.engine } := by
  cases i <;> rfl

/-- The engine after the completion of a command word (70_reset_and_hazards.md R273). -/
def engineAfterWord (T : Tables) (w : Word) (e : Engine) : Engine :=
  match decode w with
  | .ok i => engineAfter T i e
  | .error _ => e.raise .illegalCommand

/-- Every command word completes (70_reset_and_hazards.md R274). -/
theorem completeCommand_eq (w : Word) (s : State) :
    completeCommand w s = .next { s with engine := engineAfterWord s.tables w s.engine } := by
  unfold completeCommand engineAfterWord
  cases decode w with
  | ok i => exact exec_eq i s
  | error _ => rfl

/-- `raise` as a failed end of a command (60_exceptions.md R242). -/
theorem failsWith_raise (s : State) (c : ErrorCode) :
    FailsWith c.code s { s with engine := s.engine.raise c } := by
  refine ⟨⟨rfl, rfl, ?_⟩, rfl, rfl, rfl⟩
  intro d _
  cases d <;> simp [DataReg.same]

/-- The key check (10_state.md R34): the effect with a key, the error without. -/
theorem withKey_of_valid {e : Engine} (f : Engine → Engine) (h : e.keyValid = true) : e.withKey f = f e := by
  simp [Engine.withKey, h]

theorem withKey_of_invalid {e : Engine} (f : Engine → Engine) (h : e.keyValid = false) :
    e.withKey f = e.raise .uninitializedKey := by
  simp [Engine.withKey, h]

/-- An engine function ends a command with `done`, having written only the registers listed, or with an error of
its own and no other effect (60_exceptions.md R240). -/
def EndsCommand (ds : List DataReg) (e f : Engine) : Prop :=
  (∃ e' : Engine, f = e'.done ∧ e'.ovr = e.ovr ∧ e'.errs = e.errs ∧ ∀ d : DataReg, d ∉ ds → d.same e e') ∨
    ∃ c : ErrorCode, f = e.raise c

theorem endsCommand_raise (ds : List DataReg) (e : Engine) (c : ErrorCode) : EndsCommand ds e (e.raise c) :=
  .inr ⟨c, rfl⟩

theorem endsCommand_done {ds : List DataReg} {e : Engine} (e' : Engine) (h1 : e'.ovr = e.ovr)
    (h2 : e'.errs = e.errs) (h3 : ∀ d : DataReg, d ∉ ds → d.same e e') : EndsCommand ds e e'.done :=
  .inl ⟨e', rfl, h1, h2, h3⟩

theorem endsCommand_withKey {ds : List DataReg} {e : Engine} {f : Engine → Engine} (h : EndsCommand ds e (f e)) :
    EndsCommand ds e (e.withKey f) := by
  cases hk : e.keyValid with
  | true => rwa [withKey_of_valid f hk]
  | false => rw [withKey_of_invalid f hk]; exact endsCommand_raise _ _ _

theorem endsCommand_layer (f : Block → Block) (e : Engine) : EndsCommand [.blk] e (e.applyLayer f) :=
  endsCommand_done _ rfl rfl fun d hd => by cases d <;> simp_all [DataReg.same]

/-- Every command ends so, with the registers of its row of 10_state.md R50. -/
theorem engineAfter_ends (T : Tables) (i : Instr) (e : Engine) :
    EndsCommand (registersWritten i) e (engineAfter T i e) := by
  cases i with
  | setkey len =>
    simp only [engineAfter, Engine.setkey]
    split
    · exact endsCommand_done _ rfl rfl fun d hd => by cases d <;> simp_all [registersWritten, DataReg.same]
    · exact endsCommand_raise _ _ _
  | encrypt =>
    simp only [engineAfter, Engine.encrypt]
    refine endsCommand_withKey ?_
    exact endsCommand_done _ rfl rfl fun d hd => by cases d <;> simp_all [registersWritten, DataReg.same]
  | decrypt =>
    simp only [engineAfter, Engine.decrypt]
    refine endsCommand_withKey ?_
    exact endsCommand_done _ rfl rfl fun d hd => by cases d <;> simp_all [registersWritten, DataReg.same]
  | roundkey round =>
    simp only [engineAfter, Engine.roundkey]
    split
    · refine endsCommand_withKey ?_
      exact endsCommand_done _ rfl rfl fun d hd => by cases d <;> simp_all [registersWritten, DataReg.same]
    · exact endsCommand_raise _ _ _
  | sbox r => exact endsCommand_layer (fun b => sub T b r) e
  | sboxInv r => exact endsCommand_layer (fun b => subInv T b r) e
  | ip => exact endsCommand_layer _ _
  | fp => exact endsCommand_layer _ _
  | lt => exact endsCommand_layer _ _
  | ltInv => exact endsCommand_layer _ _
  | cbcInit =>
    simp only [engineAfter, Engine.cbcInit]
    refine endsCommand_withKey ?_
    exact endsCommand_done _ rfl rfl fun d hd => by cases d <;> simp_all [registersWritten, DataReg.same]
  | cbcEnc n =>
    simp only [engineAfter, Engine.cbcEnc]
    split
    · refine endsCommand_withKey ?_
      exact endsCommand_done _ rfl rfl fun d hd => by cases d <;> simp_all [registersWritten, DataReg.same]
    · exact endsCommand_raise _ _ _
  | cbcDec =>
    simp only [engineAfter, Engine.cbcDec]
    refine endsCommand_withKey ?_
    exact endsCommand_done _ rfl rfl fun d hd => by cases d <;> simp_all [registersWritten, DataReg.same]

/-- A command that ends with `done` succeeds, in the statements' terms. -/
theorem succeeds_done {ds : List DataReg} (s : State) (e' : Engine) (h1 : e'.ovr = s.engine.ovr)
    (h2 : e'.errs = s.engine.errs) (h3 : ∀ d : DataReg, d ∉ ds → d.same s.engine e') :
    Succeeds ds s { s with engine := e'.done } :=
  ⟨⟨rfl, h1, fun d hd => by have := h3 d hd; cases d <;> exact this⟩, rfl, h2, rfl⟩

/-- The engine is idle after every command word. -/
theorem engineAfterWord_pending (T : Tables) (w : Word) (e : Engine) : (engineAfterWord T w e).pending = none := by
  unfold engineAfterWord
  cases decode w with
  | ok i => rcases engineAfter_ends T i e with ⟨e', h, -⟩ | ⟨c, h⟩ <;> simp [h]
  | error _ => rfl

end Sys2Proof.Machine
end

