-- ==== Sys2Proof/Laws/Layers.lean ====
section
/-! SUPPORT. The tables and the layer functions (40_layers.md), byte by byte and bit by bit. -/

namespace Sys2Proof.Machine

/-! ### Tables -/

/-- The default tables are permutations (40_layers.md R131, R135). -/
theorem defaultTables_valid : defaultTables.Valid := by decide +kernel

theorem sboxRow_eq (T : Tables) (r : Nat) : sboxRow T r = (T.sbox.get (Fin.ofNat 8 r)).toList := by
  have h : r % 8 < 8 := Nat.mod_lt _ (by decide)
  simp [sboxRow, h, Fin.ofNat, Vector.get_eq_getElem]

/-- The look-up of 40_layers.md R133 in the table's own entries. -/
theorem sboxAt_eq (T : Tables) (r : Nat) (x : Nibble) :
    sboxAt T r x = (T.sbox.get (Fin.ofNat 8 r)).get (Fin.ofNat 16 x.toNat) := by
  have h : x.toNat < 16 := x.isLt
  simp [sboxAt, sboxRow_eq, h, Fin.ofNat, Nat.mod_eq_of_lt h, Vector.get_eq_getElem]

/-- The look-up of a byte's low nibble. -/
theorem sboxAt_low (T : Tables) (r : Nat) (x : Byte) :
    sboxAt T r (x.extractLsb' 0 4) = (T.sbox.get (Fin.ofNat 8 r)).get (Fin.ofNat 16 x.toNat) := by
  have e : Fin.ofNat 16 (x.extractLsb' 0 4).toNat = Fin.ofNat 16 x.toNat := by apply Fin.ext; simp
  rw [sboxAt_eq, e]

/-- The look-up of a byte's high nibble. -/
theorem sboxAt_high (T : Tables) (r : Nat) (x : Byte) :
    sboxAt T r (x.extractLsb' 4 4) = (T.sbox.get (Fin.ofNat 8 r)).get (Fin.ofNat 16 (x.toNat / 16)) := by
  have e : Fin.ofNat 16 (x.extractLsb' 4 4).toNat = Fin.ofNat 16 (x.toNat / 16) := by
    apply Fin.ext
    simp [Nat.shiftRight_eq_div_pow]
  rw [sboxAt_eq, e]

theorem sboxRow_nodup {T : Tables} (hT : T.Valid) (r : Nat) : (sboxRow T r).Nodup := by
  rw [sboxRow_eq]
  exact hT.1 (Fin.ofNat 8 r)

theorem sboxRow_length (T : Tables) (r : Nat) : (sboxRow T r).length = 16 := by
  rw [sboxRow_eq]
  simp

/-- The inverse look-up undoes the look-up (40_layers.md R132). -/
theorem sboxInvAt_sboxAt {T : Tables} (hT : T.Valid) (r : Nat) (x : Nibble) : sboxInvAt T r (sboxAt T r x) = x := by
  have h : x.toNat < (sboxRow T r).length := by rw [sboxRow_length]; exact x.isLt
  have e : sboxAt T r x = (sboxRow T r)[x.toNat] := by simp [sboxAt, h]
  rw [sboxInvAt, e, (sboxRow_nodup hT r).idxOf_getElem _ h]
  simp

/-- The look-up undoes the inverse look-up: an injective table of 16 nibbles holds every nibble. -/
theorem sboxAt_sboxInvAt {T : Tables} (hT : T.Valid) (r : Nat) (y : Nibble) : sboxAt T r (sboxInvAt T r y) = y := by
  have hinj : Function.Injective (sboxAt T r) :=
    Function.LeftInverse.injective (g := sboxInvAt T r) (sboxInvAt_sboxAt hT r)
  obtain ⟨x, rfl⟩ := (Finite.injective_iff_surjective.mp hinj) y
  rw [sboxInvAt_sboxAt hT]

theorem ipAt_eq (T : Tables) (i : Fin 128) : ipAt T i = (T.ip[i]).val := by
  simp [ipAt]

theorem ipAt_lt (T : Tables) (i : Nat) : ipAt T i < 128 := Fin.isLt _

/-- `FP_TABLE[IP_TABLE[i]] = i` (40_layers.md R136). -/
theorem fpAt_ipAt {T : Tables} (hT : T.Valid) {i : Nat} (h : i < 128) : fpAt T (ipAt T i) = i := by
  have hl : i < T.ip.toList.length := by simpa using h
  have e : ipAt T i = (T.ip.toList[i]).val := by simp [ipAt, h]
  rw [fpAt, List.findIdx_eq hl]
  refine ⟨by simp [e], fun j hj => ?_⟩
  have hne : T.ip.toList[j] ≠ T.ip.toList[i] := fun hc => by
    have := (List.Nodup.getElem_inj_iff hT.2).mp hc
    omega
  rw [e]
  simpa [Fin.ext_iff] using hne

theorem ipAt_fpAt {T : Tables} (hT : T.Valid) {j : Nat} (h : j < 128) : fpAt T j < 128 ∧ ipAt T (fpAt T j) = j := by
  have hinj : Function.Injective fun i : Fin 128 => (⟨ipAt T i, ipAt_lt T i⟩ : Fin 128) := fun a b hab => by
    have h1 := congrArg (fun x : Fin 128 => fpAt T x.val) hab
    simp only [fpAt_ipAt hT a.isLt, fpAt_ipAt hT b.isLt] at h1
    exact Fin.ext h1
  obtain ⟨i, hi⟩ := (Finite.injective_iff_surjective.mp hinj) ⟨j, h⟩
  have hi' : ipAt T i = j := congrArg Fin.val hi
  rw [← hi', fpAt_ipAt hT i.isLt]
  exact ⟨i.isLt, rfl⟩

/-! ### S-box layer -/

theorem byteAt_sub (T : Tables) (b : Block) (r : Nat) {i : Nat} (h : i < 16) :
    byteAt (sub T b r) i = swapSub (sboxAt T r) (byteAt b i) := by
  simp [sub, h]

theorem byteAt_subInv (T : Tables) (b : Block) (r : Nat) {i : Nat} (h : i < 16) :
    byteAt (subInv T b r) i = swapSub (sboxInvAt T r) (byteAt b i) := by
  simp [subInv, h]

/-- The nibbles of a substituted byte: the high one is the look-up of the operand's low one (40_layers.md R133). -/
theorem swapSub_high (look : Nibble → Nibble) (x : Byte) :
    (swapSub look x).extractLsb' 4 4 = look (x.extractLsb' 0 4) := by
  ext j hj
  simp only [swapSub, BitVec.getElem_extractLsb', BitVec.getLsbD_or, BitVec.getLsbD_shiftLeft,
    BitVec.getLsbD_setWidth]
  simp [← BitVec.getLsbD_eq_getElem, show 4 + j < 8 by omega, show j < 8 by omega]

theorem swapSub_low (look : Nibble → Nibble) (x : Byte) :
    (swapSub look x).extractLsb' 0 4 = look (x.extractLsb' 4 4) := by
  ext j hj
  simp only [swapSub, BitVec.getElem_extractLsb', BitVec.getLsbD_or, BitVec.getLsbD_shiftLeft,
    BitVec.getLsbD_setWidth]
  simp [hj, ← BitVec.getLsbD_eq_getElem, show j < 8 by omega]

/-- A substituted byte as a number (40_layers.md R133). -/
theorem swapSub_toNat (look : Nibble → Nibble) (x : Byte) :
    (swapSub look x).toNat = 16 * (look (x.extractLsb' 0 4)).toNat + (look (x.extractLsb' 4 4)).toNat := by
  have h1 := congrArg BitVec.toNat (swapSub_high look x)
  have h2 := congrArg BitVec.toNat (swapSub_low look x)
  simp only [BitVec.extractLsb'_toNat, Nat.shiftRight_eq_div_pow] at h1 h2
  have := (swapSub look x).isLt
  omega

/-- A byte is determined by its two nibbles. -/
theorem byte_ext_nibbles {x y : Byte} (hl : x.extractLsb' 0 4 = y.extractLsb' 0 4)
    (hh : x.extractLsb' 4 4 = y.extractLsb' 4 4) : x = y := by
  ext j hj
  rcases Nat.lt_or_ge j 4 with h | h
  · have := congrArg (fun z => z.getLsbD j) hl
    simpa [h, BitVec.getLsbD_eq_getElem hj] using this
  · have := congrArg (fun z => z.getLsbD (j - 4)) hh
    simpa [show j - 4 < 4 by omega, show 4 + (j - 4) = j by omega, BitVec.getLsbD_eq_getElem hj] using this

/-- Substituting with a look-up and then with its inverse gives the byte back (the nibbles swap twice). -/
theorem swapSub_swapSub {f g : Nibble → Nibble} (h : ∀ x, g (f x) = x) (x : Byte) : swapSub g (swapSub f x) = x := by
  apply byte_ext_nibbles
  · rw [swapSub_low, swapSub_high, h]
  · rw [swapSub_high, swapSub_low, h]

/-! ### Bit permutations -/

theorem blockBit_ipf (T : Tables) (b : Block) {i : Nat} (h : i < 128) : blockBit (ipf T b) i = blockBit b (ipAt T i) :=
  blockBit_blockOfBits _ h

theorem blockBit_fpf (T : Tables) (b : Block) {i : Nat} (h : i < 128) : blockBit (fpf T b) i = blockBit b (fpAt T i) :=
  blockBit_blockOfBits _ h

/-- The default tables are those of 40_layers.md R135 and R136. -/
theorem ipAt_defaultTables {i : Nat} (h : i < 128) : ipAt defaultTables i = 32 * (i % 4) + i / 4 := by
  simp [ipAt, defaultTables, defaultIp, h]

theorem fpAt_defaultTables {i : Nat} (h : i < 128) : fpAt defaultTables i = 4 * (i % 32) + i / 32 := by
  have e : i = ipAt defaultTables (4 * (i % 32) + i / 32) := by rw [ipAt_defaultTables (by omega)]; omega
  conv_lhs => rw [e]
  exact fpAt_ipAt defaultTables_valid (by omega)

/-! ### The four words (40_layers.md R142) -/

theorem quadOf_blockOf (q : Quad) : quadOf (blockOf q) = q := by
  rcases q with ⟨x0, x1, x2, x3⟩
  let w : Nat → Word := fun n => if n = 0 then x0 else if n = 1 then x1 else if n = 2 then x2 else x3
  have h := fun k (hk : k < 4) => be32_unbe32 w hk
  simp only [quadOf, blockOf]
  congr 1
  · exact h 0 (by decide)
  · exact h 1 (by decide)
  · exact h 2 (by decide)
  · exact h 3 (by decide)

theorem blockOf_quadOf (b : Block) : blockOf (quadOf b) = b := unbe32_be32 b

/-! ### Rotations -/

theorem rotl_eq (v : Word) {n : Nat} (h : n < 32) : rotl v n = v.rotateLeft n := by
  rw [rotl, BitVec.rotateLeft_def, Nat.mod_eq_of_lt h]

theorem rotr_eq (v : Word) {n : Nat} (h : n < 32) : rotr v n = v.rotateRight n := by
  rw [rotr, BitVec.rotateRight_def, Nat.mod_eq_of_lt h]

/-- `rotr` is the inverse of `rotl` (00_scope.md R13). -/
theorem rotr_rotl (v : Word) {n : Nat} (h0 : 0 < n) (h : n < 32) : rotr (rotl v n) n = v := by
  apply BitVec.eq_of_getLsbD_eq
  intro j hj
  simp only [rotr, rotl, BitVec.getLsbD_or, BitVec.getLsbD_shiftLeft, BitVec.getLsbD_ushiftRight]
  rcases Nat.lt_or_ge (n + j) 32 with h1 | h1
  · have h3 : v.getLsbD (32 - n + (n + j)) = false := BitVec.getLsbD_of_ge _ _ (by omega)
    simp [h1, h3, show j < 32 - n by omega]
  · have h2 : j - (32 - n) < n := by omega
    have h4 : 32 - n + (j - (32 - n)) = j := by omega
    simp [hj, h2, h4, show ¬ n + j < 32 by omega, show ¬ j < 32 - n by omega,
      BitVec.getLsbD_of_ge v (32 - n + (n + j)) (by omega)]

theorem rotl_rotr (v : Word) {n : Nat} (h0 : 0 < n) (h : n < 32) : rotl (rotr v n) n = v := by
  apply BitVec.eq_of_getLsbD_eq
  intro j hj
  simp only [rotr, rotl, BitVec.getLsbD_or, BitVec.getLsbD_shiftLeft, BitVec.getLsbD_ushiftRight]
  rcases Nat.lt_or_ge j n with h1 | h1
  · have h2 : 32 - n + j - (32 - n) = j := by omega
    simp [hj, h1, h2, show 32 - n + j < 32 by omega, BitVec.getLsbD_of_ge v (n + (32 - n + j)) (by omega)]
  · have h4 : n + (j - n) = j := by omega
    simp [hj, h4, show ¬ j < n by omega, show j - n < 32 - n by omega,
      BitVec.getLsbD_of_ge v (n + (32 - n + j)) (by omega)]

end Sys2Proof.Machine
end

