-- ==== Sys2Proof/Laws/Cipher.lean ====
section
/-! SUPPORT. The key schedule, the cipher's rounds and the keyed commands: one lemma for each function and each
successful command (41_key_schedule.md, 42_cipher.md, 43_cbc.md). -/

namespace Sys2Proof.Machine

/-! ### Prekeys -/

/-- A longer list of prekeys ends with the shorter ones (41_key_schedule.md R173). -/
theorem prekeyList_getD (k : KeyBuffer) {m n : Nat} (j : Nat) (h : m ≤ n) :
    (prekeyList k n).getD (n - m + j) 0 = (prekeyList k m).getD j 0 := by
  induction n with
  | zero =>
    obtain rfl : m = 0 := by omega
    simp
  | succ n ih =>
    rcases Nat.lt_or_ge n m with h1 | h1
    · obtain rfl : m = n + 1 := by omega
      simp
    · rw [show n + 1 - m + j = (n - m + j) + 1 by omega, prekeyList, List.getD_cons_succ, ih h1]

theorem pkAt_prekeys (k : KeyBuffer) (len : Nat) {i : Nat} (h : i < 140) :
    pkAt (prekeys k len) i = (prekeyList (padKey k len) 132).getD (139 - i) 0 := by
  simp [pkAt, prekeys, h]

/-- The first eight prekeys are the words of the padded key (41_key_schedule.md R172). -/
theorem pkAt_prekeys_low (k : KeyBuffer) (len : Nat) {i : Nat} (h : i < 8) :
    pkAt (prekeys k len) i = be32 (padKey k len) i := by
  rw [pkAt_prekeys _ _ (by omega), show 139 - i = 132 - 0 + (7 - i) by omega, prekeyList_getD _ _ (by omega)]
  interval_cases i <;> rfl

/-- Every later prekey follows the recurrence (41_key_schedule.md R173). -/
theorem pkAt_prekeys_high (k : KeyBuffer) (len : Nat) {i : Nat} (h : 8 ≤ i) (h' : i < 140) :
    pkAt (prekeys k len) i =
      rotl (pkAt (prekeys k len) (i - 8) ^^^ pkAt (prekeys k len) (i - 5) ^^^ pkAt (prekeys k len) (i - 3) ^^^
        pkAt (prekeys k len) (i - 1) ^^^ BitVec.ofNat 32 (i - 8) ^^^ phi) 11 := by
  obtain ⟨m, rfl⟩ : ∃ m, i = m + 8 := ⟨i - 8, by omega⟩
  have g : ∀ j, j < 8 → (prekeyList (padKey k len) m).getD j 0 = pkAt (prekeys k len) (m + 7 - j) := by
    intro j hj
    rw [pkAt_prekeys _ _ (by omega), ← prekeyList_getD _ j (show m ≤ 132 by omega)]
    congr 1
    omega
  rw [pkAt_prekeys _ _ h', show 139 - (m + 8) = 132 - (m + 1) + 0 by omega, prekeyList_getD _ _ (by omega), prekeyList,
    List.getD_cons_zero, nextPrekey, g 7 (by decide), g 4 (by decide), g 2 (by decide), g 0 (by decide)]
  simp only [show m + 7 - 7 = m + 8 - 8 by omega, show m + 7 - 4 = m + 8 - 5 by omega,
    show m + 7 - 2 = m + 8 - 3 by omega, show m + 7 - 0 = m + 8 - 1 by omega, show m + 8 - 8 = m by omega]

/-- The bytes of the padded key (41_key_schedule.md R171). -/
theorem byteAt_padKey (k : KeyBuffer) (len : Nat) {n : Nat} (h : n < 32) :
    byteAt (padKey k len) n = if n < len then byteAt k n else if n = len then 0x80 else 0x00 := by
  simp [padKey, h]

/-- The bytes of a padded chunk (43_cbc.md R223). -/
theorem byteAt_zeroPad (b : Block) (n : Nat) {m : Nat} (h : m < 16) :
    byteAt (zeroPad b n) m = if m < n then byteAt b m else 0x00 := by
  simp [zeroPad, h]

/-- The table index of a round key is `(3 - r) mod 8` (41_key_schedule.md R179). -/
theorem roundTable_eq {r : Nat} (h : r ≤ 32) : roundTable r = ((3 - (r : Int)) % 8).toNat := by
  unfold roundTable
  omega

/-! ### Rounds -/

theorem encRounds_succ (T : Tables) (pk : Prekeys) (s : Block) (n : Nat) :
    encRounds T pk s (n + 1) = encRound T pk n (encRounds T pk s n) := rfl

theorem decRounds_succ (T : Tables) (pk : Prekeys) (s : Block) (n : Nat) :
    decRounds T pk s (n + 1) = decRounds T pk (decRound T pk n s) n := rfl

/-- A round but the last ends with the linear transform (42_cipher.md R200). -/
theorem encRound_inner (T : Tables) (pk : Prekeys) (s : Block) {r : Nat} (h : r < 31) :
    encRound T pk r s = ltf T (sub T (xorBlock s (rkf T pk r)) r) := by
  simp [encRound, show r ≠ 31 by omega]

theorem encRound_last (T : Tables) (pk : Prekeys) (s : Block) :
    encRound T pk 31 s = xorBlock (sub T (xorBlock s (rkf T pk 31)) 31) (rkf T pk 32) := by
  simp [encRound]

theorem decRound_inner (T : Tables) (pk : Prekeys) (s : Block) {r : Nat} (h : r < 31) :
    decRound T pk r s = xorBlock (subInv T (lti T s) r) (rkf T pk r) := by
  simp [decRound, show r ≠ 31 by omega]

theorem decRound_last (T : Tables) (pk : Prekeys) (s : Block) :
    decRound T pk 31 s = xorBlock (subInv T s 31) (rkf T pk 31) := by
  simp [decRound]

/-! ### The commands -/

/-- `SETKEY` with a legal length (41_key_schedule.md R175). -/
theorem exec_setkey {s : State} {len : Nat} (h : 1 ≤ len) (h' : len ≤ 32) :
    exec (.setkey len) s =
      .next { s with engine := { s.engine with pk := prekeys s.engine.keybuf len, keyValid := true }.done } := by
  rw [exec_eq]
  simp [engineAfter, Engine.setkey, keyLengthLegal, h, h']

/-- `ROUNDKEY` with a legal round and a key (41_key_schedule.md R178). -/
theorem exec_roundkey {s : State} {r : Nat} (h : r ≤ 32) (hk : s.engine.keyValid = true) :
    exec (.roundkey r) s = .next { s with engine := { s.engine with rk := rkf s.tables s.engine.pk r }.done } := by
  rw [exec_eq]
  simp [engineAfter, Engine.roundkey, roundLegal, h, withKey_of_valid _ hk]

/-- `ENCRYPT` with a key (42_cipher.md R200). -/
theorem exec_encrypt {s : State} (hk : s.engine.keyValid = true) :
    exec .encrypt s =
      .next { s with engine := { s.engine with blk := enc s.tables s.engine.pk s.engine.blk }.done } := by
  rw [exec_eq]
  simp [engineAfter, Engine.encrypt, withKey_of_valid _ hk]

/-- `DECRYPT` with a key (42_cipher.md R202). -/
theorem exec_decrypt {s : State} (hk : s.engine.keyValid = true) :
    exec .decrypt s =
      .next { s with engine := { s.engine with blk := dec s.tables s.engine.pk s.engine.blk }.done } := by
  rw [exec_eq]
  simp [engineAfter, Engine.decrypt, withKey_of_valid _ hk]

/-- `CBC_INIT` with a key (43_cbc.md R222). -/
theorem exec_cbcInit {s : State} (hk : s.engine.keyValid = true) :
    exec .cbcInit s = .next { s with engine := { s.engine with
      iv := enc s.tables s.engine.pk (nonceBlock (nonceValue s.engine.nonceHi s.engine.nonceLo)) }.done } := by
  rw [exec_eq]
  simp [engineAfter, Engine.cbcInit, withKey_of_valid _ hk]

/-- `CBC_ENC` with a legal count and a key (43_cbc.md R223). -/
theorem exec_cbcEnc {s : State} {n : Nat} (h : 1 ≤ n) (h' : n ≤ 16) (hk : s.engine.keyValid = true) :
    exec (.cbcEnc n) s = .next { s with engine := { s.engine with
      blk := enc s.tables s.engine.pk (xorBlock (zeroPad s.engine.blk n) s.engine.iv)
      iv := enc s.tables s.engine.pk (xorBlock (zeroPad s.engine.blk n) s.engine.iv) }.done } := by
  rw [exec_eq]
  simp [engineAfter, Engine.cbcEnc, chunkLengthLegal, h, h', withKey_of_valid _ hk]

/-- `CBC_DEC` with a key (43_cbc.md R224). -/
theorem exec_cbcDec {s : State} (hk : s.engine.keyValid = true) :
    exec .cbcDec s = .next { s with engine := { s.engine with
      blk := xorBlock (dec s.tables s.engine.pk s.engine.blk) s.engine.iv
      iv := s.engine.blk }.done } := by
  rw [exec_eq]
  simp [engineAfter, Engine.cbcDec, withKey_of_valid _ hk]

end Sys2Proof.Machine
end

