-- ==== Sys2Proof/Laws/PerInstr.lean ====
section
/-! SUPPORT. Per-command facts about the encoding, one lemma for each constructor. -/

namespace Sys2Proof.Laws

/-- The word of a command selects the command's row of the opcode map (30_encoding.md R102). -/
def OpcodeMap.Statement (i : Instr) : Prop := i.WellFormed → (opcodeRow i).selects (encode i)

/-- The opcode bits and the reserved bits of a command word do not depend on the operand. -/
theorem commandWord_masked (op : Byte) (arg : Nat) :
    commandWord op arg &&& 0xFFFF00FF = op.setWidth 32 := by
  apply BitVec.eq_of_getLsbD_eq
  intro j hj
  simp only [commandWord, BitVec.getLsbD_and, BitVec.getLsbD_or, BitVec.getLsbD_shiftLeft, BitVec.getLsbD_ofNat,
    BitVec.getLsbD_setWidth, hj, decide_true, Bool.true_and]
  rcases Nat.lt_or_ge j 8 with h | h
  · interval_cases j <;> simp
  · have h1 : op.getLsbD j = false := BitVec.getLsbD_of_ge _ _ h
    rcases Nat.lt_or_ge j 16 with h2 | h2
    · interval_cases j <;> simp_all
    · have hb : arg % 256 < 2 ^ 8 := by omega
      have h3 : (arg % 256).testBit (j - 8) = false :=
        Nat.testBit_lt_two_pow (Nat.lt_of_lt_of_le hb (Nat.pow_le_pow_right (by decide) (by omega)))
      simp [h1, h3]

theorem OpcodeMap.setkey (len : Nat) : OpcodeMap.Statement (.setkey len) := fun _ => commandWord_masked _ _
theorem OpcodeMap.encrypt : OpcodeMap.Statement .encrypt := fun _ => rfl
theorem OpcodeMap.decrypt : OpcodeMap.Statement .decrypt := fun _ => rfl
theorem OpcodeMap.roundkey (round : Nat) : OpcodeMap.Statement (.roundkey round) := fun _ => commandWord_masked _ _
theorem OpcodeMap.sbox (r : Nat) : OpcodeMap.Statement (.sbox r) := fun _ => commandWord_masked _ _
theorem OpcodeMap.sboxInv (r : Nat) : OpcodeMap.Statement (.sboxInv r) := fun _ => commandWord_masked _ _
theorem OpcodeMap.ip : OpcodeMap.Statement .ip := fun _ => rfl
theorem OpcodeMap.fp : OpcodeMap.Statement .fp := fun _ => rfl
theorem OpcodeMap.lt : OpcodeMap.Statement .lt := fun _ => rfl
theorem OpcodeMap.ltInv : OpcodeMap.Statement .ltInv := fun _ => rfl
theorem OpcodeMap.cbcInit : OpcodeMap.Statement .cbcInit := fun _ => rfl
theorem OpcodeMap.cbcEnc (n : Nat) : OpcodeMap.Statement (.cbcEnc n) := fun _ => commandWord_masked _ _
theorem OpcodeMap.cbcDec : OpcodeMap.Statement .cbcDec := fun _ => rfl

end Sys2Proof.Laws
end

