-- ==== Sys2Proof/Laws/Window.lean ====
section
/-! SUPPORT. The register window (20_memory.md): addresses and offsets, and what a read or a write can do. -/

namespace Sys2Proof.Machine

/-! ### Addresses -/

/-- `BASE + off` is the window's offset `off` (20_memory.md R70). -/
@[simp] theorem windowOffset_busAddress {off : Nat} (h : off < 4096) : windowOffset (busAddress off) = some off := by
  have h1 : (4096 * Config.basePage + off) / 4096 = Config.basePage := by omega
  have h2 : (4096 * Config.basePage + off) % 4096 = off := by omega
  simp [windowOffset, busAddress, Config.base, h1, h2]

theorem windowOffset_outside {addr : Nat} (h : addr < Config.base ∨ Config.base + 4096 ≤ addr) :
    windowOffset addr = none := by
  have : addr / 4096 ≠ Config.basePage := by simp only [Config.base] at h; omega
  simp [windowOffset, this]

/-- A legal access is a word access to some aligned offset of the window (20_memory.md R70, R74). -/
theorem wellFormed_access {a : BusAccess} (h : a.wellFormed = true) :
    a.width = .word ∧ ∃ off, windowOffset a.addr = some off ∧ off % 4 = 0 ∧ off < 4096 := by
  simp only [BusAccess.wellFormed, Bool.and_eq_true, beq_iff_eq] at h
  obtain ⟨⟨hw, ha⟩, hp⟩ := h
  exact ⟨hw, a.addr % 4096, by simp [windowOffset, hp], by omega, Nat.mod_lt _ (by decide)⟩

theorem registerAt_key {off n : Nat} (h : n < 8) (e : off = 0x010 + 4 * n) : registerAt off = .key n := by
  unfold registerAt
  simp (disch := omega) only [if_pos, if_neg]
  exact congrArg _ (by omega)

theorem registerAt_blk {off n : Nat} (h : n < 4) (e : off = 0x030 + 4 * n) : registerAt off = .blk n := by
  unfold registerAt
  simp (disch := omega) only [if_pos, if_neg]
  exact congrArg _ (by omega)

theorem registerAt_iv {off n : Nat} (h : n < 4) (e : off = 0x040 + 4 * n) : registerAt off = .iv n := by
  unfold registerAt
  simp (disch := omega) only [if_pos, if_neg]
  exact congrArg _ (by omega)

theorem registerAt_rk {off n : Nat} (h : n < 4) (e : off = 0x060 + 4 * n) : registerAt off = .rk n := by
  unfold registerAt
  simp (disch := omega) only [if_pos, if_neg]
  exact congrArg _ (by omega)

theorem registerAt_pk {off i : Nat} (h : i < 140) (e : off = 0x400 + 4 * i) : registerAt off = .pk i := by
  unfold registerAt
  simp (disch := omega) only [if_pos, if_neg]
  exact congrArg _ (by omega)

/-- Every other aligned offset but 0, 4, 8, 0x50 and 0x54 is reserved (20_memory.md R71). -/
theorem registerAt_reserved {off : Nat}
    (h : off = 0x00C ∨ 0x058 ≤ off ∧ off ≤ 0x05C ∨ 0x070 ≤ off ∧ off ≤ 0x3FC ∨ 0x630 ≤ off) :
    registerAt off = .reserved := by
  unfold registerAt
  simp (disch := omega) only [if_neg]

/-- The map names each register at its offset (20_memory.md R71). -/
theorem registerAt_offsetOf (r : RegName) (h : r.wellFormed = true ∨ r = .reserved) :
    registerAt (offsetOf r) = r := by
  cases r with
  | key n => exact registerAt_key (by simpa [RegName.wellFormed] using h) rfl
  | blk n => exact registerAt_blk (by simpa [RegName.wellFormed] using h) rfl
  | iv n => exact registerAt_iv (by simpa [RegName.wellFormed] using h) rfl
  | rk n => exact registerAt_rk (by simpa [RegName.wellFormed] using h) rfl
  | pk i => exact registerAt_pk (by simpa [RegName.wellFormed] using h) rfl
  | cmd => rfl
  | status => rfl
  | info => rfl
  | nonceLo => rfl
  | nonceHi => rfl
  | reserved => rfl

/-- An aligned offset that names a register is that register's offset (20_memory.md R71), so two offsets that name
the same register are equal; and the register's index is in its range. -/
theorem registerAt_named {off : Nat} (ha : off % 4 = 0) (h : registerAt off ≠ .reserved) :
    offsetOf (registerAt off) = off ∧ (registerAt off).wellFormed = true := by
  by_cases h0 : off = 0x000
  · rw [h0]; exact ⟨rfl, rfl⟩
  by_cases h1 : off = 0x004
  · rw [h1]; exact ⟨rfl, rfl⟩
  by_cases h2 : off = 0x008
  · rw [h2]; exact ⟨rfl, rfl⟩
  by_cases h3 : off = 0x050
  · rw [h3]; exact ⟨rfl, rfl⟩
  by_cases h4 : off = 0x054
  · rw [h4]; exact ⟨rfl, rfl⟩
  by_cases h5 : 0x010 ≤ off ∧ off ≤ 0x02C
  · rw [registerAt_key (n := (off - 0x010) / 4) (by omega) (by omega)]
    exact ⟨by simp only [offsetOf]; omega, by simp only [RegName.wellFormed, decide_eq_true_eq]; omega⟩
  by_cases h6 : 0x030 ≤ off ∧ off ≤ 0x03C
  · rw [registerAt_blk (n := (off - 0x030) / 4) (by omega) (by omega)]
    exact ⟨by simp only [offsetOf]; omega, by simp only [RegName.wellFormed, decide_eq_true_eq]; omega⟩
  by_cases h7 : 0x040 ≤ off ∧ off ≤ 0x04C
  · rw [registerAt_iv (n := (off - 0x040) / 4) (by omega) (by omega)]
    exact ⟨by simp only [offsetOf]; omega, by simp only [RegName.wellFormed, decide_eq_true_eq]; omega⟩
  by_cases h8 : 0x060 ≤ off ∧ off ≤ 0x06C
  · rw [registerAt_rk (n := (off - 0x060) / 4) (by omega) (by omega)]
    exact ⟨by simp only [offsetOf]; omega, by simp only [RegName.wellFormed, decide_eq_true_eq]; omega⟩
  by_cases h9 : 0x400 ≤ off ∧ off ≤ 0x62C
  · rw [registerAt_pk (i := (off - 0x400) / 4) (by omega) (by omega)]
    exact ⟨by simp only [offsetOf]; omega, by simp only [RegName.wellFormed, decide_eq_true_eq]; omega⟩
  exact absurd (registerAt_reserved (by omega)) h

/-- While idle every register reads as a value (20_memory.md R76). -/
theorem readRegister_idle {e : Engine} (h : e.busy = false) (r : RegName) : ∃ v, e.readRegister r = some v := by
  cases r <;> simp [Engine.readRegister, h]

/-! ### Reads and writes -/

/-- A word read at an aligned offset of the window (20_memory.md R76). -/
theorem busAccess_read (s : State) {off : Nat} (h : off < 4096) (ha : off % 4 = 0) :
    busAccess ⟨busAddress off, .word, .read⟩ s =
      .next ((s.readWord off).2.record (busAddress off) (s.readWord off).1) := by
  simp [busAccess, windowOffset_busAddress h, ha]

/-- A word write at an aligned offset of the window (20_memory.md R77). -/
theorem busAccess_write (s : State) {off : Nat} (v : Word) (h : off < 4096) (ha : off % 4 = 0) :
    busAccess ⟨busAddress off, .word, .write v⟩ s = .next (s.writeWord off v) := by
  simp [busAccess, windowOffset_busAddress h, ha]

/-- A read differs from no read by at most one free draw (20_memory.md R76). -/
theorem readWord_state (s : State) (off : Nat) :
    (s.readWord off).2 = s ∨ (s.readWord off).2 = s.draw.2 := by
  unfold State.readWord
  split
  · exact .inr rfl
  · split
    · exact .inl rfl
    · exact .inr rfl

/-- What a write does to the engine (20_memory.md R77): nothing, `OVR`, or the idle write of its register. -/
theorem writeRegister_cases (e : Engine) (r : RegName) (v : Word) :
    (writable r = false ∧ e.writeRegister r v = e) ∨
    (writable r = true ∧ e.busy = true ∧ e.writeRegister r v = { e with ovr := true }) ∨
    (writable r = true ∧ e.busy = false ∧ e.writeRegister r v = e.writeIdle r v) := by
  unfold Engine.writeRegister
  cases hw : writable r <;> cases hb : e.busy <;> simp

/-- A host write never touches the prekeys, `RK`, `KEY_VALID` or `ERR` (10_state.md R34, R37, R44, R45). -/
theorem writeRegister_readOnly (e : Engine) (r : RegName) (v : Word) :
    (e.writeRegister r v).pk = e.pk ∧ (e.writeRegister r v).rk = e.rk ∧
      (e.writeRegister r v).keyValid = e.keyValid ∧ (e.writeRegister r v).err = e.err := by
  rcases writeRegister_cases e r v with ⟨-, h⟩ | ⟨-, -, h⟩ | ⟨-, -, h⟩ <;> rw [h]
  · simp
  · simp
  · cases r <;> simp [Engine.writeIdle]

end Sys2Proof.Machine
end

