-- ==== Sys2Proof/Laws/Step.lean ====
section
/-! SUPPORT. What a turn and a step can do. -/

namespace Sys2Proof.Machine

/-- A bus access that is performed is a word access at an aligned offset: a read, or a write (20_memory.md R74,
R76, R77). -/
theorem busAccess_cases {a : BusAccess} {s t : State} (h : busAccess a s = .next t) :
    ∃ off, windowOffset a.addr = some off ∧ a.width = .word ∧ off % 4 = 0 ∧
      ((a.access = .read ∧ t = (s.readWord off).2.record a.addr (s.readWord off).1) ∨
        ∃ v, a.access = .write v ∧ t = s.writeWord off v) := by
  unfold busAccess at h
  split at h
  · cases h
  · rename_i off hoff
    refine ⟨off, hoff, ?_⟩
    split at h
    · cases h
    · rename_i hw
      split at h
      · cases h
      · rename_i ha
        refine ⟨not_not.mp hw, not_not.mp ha, ?_⟩
        split at h
        · rename_i hacc
          injection h with h
          exact .inl ⟨hacc, h.symm⟩
        · rename_i v hacc
          injection h with h
          exact .inr ⟨v, hacc, h.symm⟩

/-- What a bus access leaves: the tables, the reset input, the host's program and the turns as they were, and the
engine as it was or after one register write. -/
theorem busAccess_engine {a : BusAccess} {s t : State} (h : busAccess a s = .next t) :
    t.tables = s.tables ∧ t.rst = s.rst ∧ t.turns = s.turns ∧ t.program = s.program ∧
      (t.engine = s.engine ∨ (s.rst = false ∧ ∃ r v, t.engine = s.engine.writeRegister r v)) := by
  obtain ⟨off, -, -, -, ⟨-, rfl⟩ | ⟨v, -, rfl⟩⟩ := busAccess_cases h
  · rcases readWord_state s off with hr | hr <;> rw [State.record_tables, State.record_rst, State.record_turns,
      State.record_program, State.record_engine, hr] <;> simp
  · unfold State.writeWord
    cases hr : s.rst with
    | true => simp [hr]
    | false => exact ⟨by simp, by simp, by simp, by simp, .inr ⟨rfl, _, _, rfl⟩⟩

/-- A poll reads `STATUS` and leaves the engine alone (30_encoding.md R107). -/
theorem pollStatus_frame (s : State) :
    (pollStatus s).tables = s.tables ∧ (pollStatus s).engine = s.engine ∧ (pollStatus s).rst = s.rst ∧
      (pollStatus s).turns = s.turns ∧ ((pollStatus s).program = s.program ∨ (pollStatus s).program = .poll :: s.program) := by
  unfold pollStatus
  have hr := readWord_state s (offsetOf .status)
  rcases hp : s.readWord (offsetOf .status) with ⟨v, t⟩
  rw [hp] at hr
  simp only at hr ⊢
  split <;> rcases hr with rfl | rfl <;> simp

/-- What the host's turn leaves. -/
theorem hostTurn_cases {s t : State} (h : hostTurn s = .next t) :
    t.tables = s.tables ∧ t.rst = s.rst ∧ t.turns = s.turns ∧
      (t.engine = s.engine ∨ (s.rst = false ∧ ∃ r v, t.engine = s.engine.writeRegister r v)) := by
  unfold hostTurn at h
  split at h
  · injection h with h
    subst h
    simp
  · obtain ⟨h0, h1, h2, -, h3⟩ := busAccess_engine h
    exact ⟨h0, h1, h2, h3⟩
  · injection h with h
    subst h
    obtain ⟨h0, h1, h2, h3, -⟩ := pollStatus_frame { s with program := ‹List HostOp› }
    exact ⟨h0, h2, h3, .inl h1⟩

/-- What the engine's turn does: nothing, or the completion of the pending word (70_reset_and_hazards.md R273). -/
theorem engineTurn_cases {s t : State} (h : engineTurn s = .next t) :
    (t = s ∧ (s.rst = true ∨ s.engine.pending = none)) ∨
      (s.rst = false ∧ ∃ w, s.engine.pending = some w ∧ t = { s with engine := engineAfterWord s.tables w s.engine }) := by
  unfold engineTurn at h
  split at h
  · rename_i hr
    injection h with h
    exact .inl ⟨h.symm, .inl hr⟩
  · rename_i hr
    split at h
    · rename_i w hw
      rw [completeCommand_eq] at h
      injection h with h
      exact .inr ⟨by simpa using hr, w, hw, h.symm⟩
    · rename_i hn
      injection h with h
      exact .inl ⟨h.symm, .inr hn⟩

/-- What an agent's step does to the engine and the reset input: the pending word completed, nothing, or one register
write by the host. -/
def AgentStep (s t : State) : Prop :=
  (s.rst = false ∧ t.rst = false ∧
    ∃ w, s.engine.pending = some w ∧ t.engine = engineAfterWord s.tables w s.engine) ∨
  (t.engine = s.engine ∧ t.rst = s.rst) ∨
  (s.rst = false ∧ t.rst = false ∧ ∃ r v, t.engine = s.engine.writeRegister r v)

/-- A turn of the host or of the engine keeps the tables and is an agent's step. -/
theorem takeTurn_agent {s t : State} {turn : Turn} (hturn : turn = .host ∨ turn = .engine)
    (h : takeTurn turn s = .next t) : t.tables = s.tables ∧ AgentStep s t := by
  rcases hturn with rfl | rfl
  · obtain ⟨h0, h1, -, h2 | ⟨h3, h4⟩⟩ := hostTurn_cases h
    · exact ⟨h0, .inr (.inl ⟨h2, h1⟩)⟩
    · exact ⟨h0, .inr (.inr ⟨h3, h1.trans h3, h4⟩)⟩
  · rcases engineTurn_cases h with ⟨rfl, -⟩ | ⟨h1, w, h2, rfl⟩
    · exact ⟨rfl, .inr (.inl ⟨rfl, rfl⟩)⟩
    · exact ⟨rfl, .inl ⟨h1, h1, w, h2, rfl⟩⟩

/-- Everything a step can do to the tables, the engine and the reset input: the tables stay, and reset is applied or
released, the pending word completed, nothing changed, or one register written by the host. -/
theorem step_cases {s t : State} (h : step s = .next t) :
    t.tables = s.tables ∧
    ((∃ ts, s.turns = .assertReset :: ts ∧ t = State.assertReset { s with turns := ts }) ∨
     (∃ ts, s.turns = .releaseReset :: ts ∧ t = State.releaseReset { s with turns := ts }) ∨
     AgentStep s t) := by
  unfold step nextTurn at h
  split at h
  · rename_i turn ts hts
    cases turn with
    | host => exact (takeTurn_agent (.inl rfl) h).imp_right fun h => .inr (.inr h)
    | engine => exact (takeTurn_agent (.inr rfl) h).imp_right fun h => .inr (.inr h)
    | assertReset =>
      simp only [takeTurn] at h
      injection h with h
      exact ⟨by rw [← h, State.assertReset_tables], .inl ⟨ts, hts, h.symm⟩⟩
    | releaseReset =>
      simp only [takeTurn] at h
      injection h with h
      exact ⟨by rw [← h, State.releaseReset_tables], .inr (.inl ⟨ts, hts, h.symm⟩)⟩
  · refine (takeTurn_agent ?_ h).imp_right fun h => .inr (.inr h)
    unfold defaultTurn
    cases s.engine.busy <;> simp

/-! ### Runs -/

/-- A run of one step more takes that step first. -/
theorem core_run_succ {s t : State} (k : Nat) (h : step s = .next t) :
    Host.Core.run Sys2Proof.core (k + 1) s = Host.Core.run Sys2Proof.core k t := by
  have h' : Sys2Proof.core.step s = .next t := h
  simp only [Host.Core.run, h']

end Sys2Proof.Machine
end

