-- ==== Sys2Proof/Tests/Slice0.lean ====
section
/-! SUPPORT. The model's own tests: ill-formed terms refused, written-out words decoded, one step of each command
against 95_test_vectors.md, and a witness for the hypotheses of each statement. -/

namespace Sys2Proof.Tests

open Sys2Proof Sys2Proof.Machine

/-! ### Small states -/

/-- The block written as 32 hexadecimal digits, byte 0 first (00_scope.md R10). -/
def hexBlock (n : Nat) : Block := Vector.ofFn fun i => BitVec.ofNat 8 (n / 256 ^ (15 - i.val))

/-- The key buffer written as 64 hexadecimal digits, byte 0 first. -/
def hexKey (n : Nat) : KeyBuffer := Vector.ofFn fun i => BitVec.ofNat 8 (n / 256 ^ (31 - i.val))

/-- An engine with every register zero: a test's state, not the reset state. -/
def zeroEngine : Engine where
  keybuf := Vector.replicate 32 0
  blk := Vector.replicate 16 0
  iv := Vector.replicate 16 0
  nonceLo := 0
  nonceHi := 0
  rk := Vector.replicate 16 0
  pk := Vector.replicate 140 0
  keyValid := false
  errs := false
  ovr := false
  err := 0
  pending := none

/-- A machine with the default tables whose engine is `e`, with nothing else to do. -/
def machineOf (e : Engine) : State where
  tables := defaultTables
  engine := e
  rst := false
  program := []
  results := []
  turns := []
  draws := 0

/-- The all-zero machine. -/
def zeroMachine : State := machineOf zeroEngine

/-- The schedule of the key `zero32`. -/
def zeroPrekeys : Prekeys := prekeys (Vector.replicate 32 0) 32

/-- The all-zero machine after `SETKEY 32`. -/
def keyedMachine : State := machineOf { zeroEngine with pk := zeroPrekeys, keyValid := true }

/-- The all-zero machine with a command word pending. -/
def pendingMachine (w : Word) : State := machineOf { zeroEngine with pending := some w }

/-- A machine with `BLK` loaded. -/
def withBlk (n : Nat) : State := machineOf { zeroEngine with blk := hexBlock n }

/-- Permutation tables that are not the defaults: every S-box adds 1, and the permutations reverse the bits. -/
def otherTables : Tables where
  sbox := Vector.replicate 8 (Vector.ofFn fun x => BitVec.ofNat 4 (x.val + 1))
  ip := Vector.ofFn fun i => Fin.rev i

/-- A fact about the engine after a step or a command that answers a next state. -/
def after (o : Host.Outcome State Fault Refusal) (f : Engine → Bool) : Bool :=
  match o with
  | .next t => f t.engine
  | .fault _ => false
  | .refused _ => false

/-! ### Ill-formed terms are refused (30_encoding.md R100, 20_memory.md R70, R71, R74) -/

theorem test_operand_256_illformed : (Instr.setkey 256).wellFormed = false := by decide
theorem test_roundkey_256_illformed : (Instr.roundkey 256).wellFormed = false := by decide
theorem test_sbox_300_illformed : (Instr.sbox 300).wellFormed = false := by decide
theorem test_sboxInv_256_illformed : (Instr.sboxInv 256).wellFormed = false := by decide
theorem test_cbcEnc_256_illformed : (Instr.cbcEnc 256).wellFormed = false := by decide
theorem test_register_indexes_illformed :
    (RegName.key 8).wellFormed = false ∧ (RegName.blk 4).wellFormed = false ∧ (RegName.iv 4).wellFormed = false ∧
      (RegName.rk 4).wellFormed = false ∧ (RegName.pk 140).wellFormed = false ∧ RegName.reserved.wellFormed = false := by
  decide
theorem test_narrow_access_illformed (addr : Nat) (a : Access) :
    (BusAccess.mk addr .byte a).wellFormed = false ∧ (BusAccess.mk addr .half a).wellFormed = false := ⟨rfl, rfl⟩
theorem test_misaligned_access_illformed (a : Access) : (BusAccess.mk (busAddress 2) .word a).wellFormed = false := by
  by_contra h
  obtain ⟨-, off, h1, h2, -⟩ := wellFormed_access (Bool.eq_true_of_not_eq_false h)
  rw [windowOffset_busAddress (by decide)] at h1
  injection h1 with h1
  omega
theorem test_access_past_the_window_illformed (a : Access) :
    (BusAccess.mk (busAddress 4096) .word a).wellFormed = false := by
  by_contra h
  obtain ⟨-, off, h1, -, -⟩ := wellFormed_access (Bool.eq_true_of_not_eq_false h)
  rw [windowOffset_outside (addr := busAddress 4096) (.inr (Nat.le_refl _))] at h1
  cases h1
theorem test_illformed_access_is_no_host_op (addr : Nat) (a : Access) :
    (HostOp.bus ⟨addr, .half, a⟩).wellFormed = false := rfl
theorem test_statement_operands_illformed :
    (HostStmt.wr (.offset 2) 0).wellFormed = false ∧ (HostStmt.rd (.offset 4096)).wellFormed = false ∧
      (HostStmt.rd (.named (.pk 140))).wellFormed = false ∧ (HostStmt.command (.sbox 256)).wellFormed = false ∧
      (HostStmt.loadkey []).wellFormed = false ∧ (HostStmt.loadkey (List.replicate 33 0)).wellFormed = false := by
  decide

/-! ### Decoding: words written out from the patterns of 30_encoding.md R102 -/

theorem test_decode_setkey : decode 0b00000000000000000001000000000001 = .ok (.setkey 16) := rfl
theorem test_decode_encrypt : decode 0b00000000000000000000000000000010 = .ok .encrypt := rfl
theorem test_decode_decrypt : decode 0b00000000000000000000000000000011 = .ok .decrypt := rfl
theorem test_decode_roundkey : decode 0b00000000000000000010000000000100 = .ok (.roundkey 32) := rfl
theorem test_decode_sbox : decode 0b00000000000000000000110100010000 = .ok (.sbox 13) := rfl
theorem test_decode_sboxInv : decode 0b00000000000000001111111100010001 = .ok (.sboxInv 255) := rfl
theorem test_decode_ip : decode 0b00000000000000000000000000010010 = .ok .ip := rfl
theorem test_decode_fp : decode 0b00000000000000000000000000010011 = .ok .fp := rfl
theorem test_decode_lt : decode 0b00000000000000000000000000010100 = .ok .lt := rfl
theorem test_decode_ltInv : decode 0b00000000000000000000000000010101 = .ok .ltInv := rfl
theorem test_decode_cbcInit : decode 0b00000000000000000000000000100000 = .ok .cbcInit := rfl
theorem test_decode_cbcEnc : decode 0b00000000000000000000010100100001 = .ok (.cbcEnc 5) := rfl
theorem test_decode_cbcDec : decode 0b00000000000000000000000000100010 = .ok .cbcDec := rfl

/-- 95_test_vectors.md VE16 to VE22: the illegal words, each by its reason. -/
theorem test_decode_illegal :
    decode 0x00000102 = .error .argumentNotZero ∧ decode 0x00010002 = .error .reservedBits ∧
      decode 0x80002001 = .error .reservedBits ∧ decode 0x00000000 = .error .unknownOpcode ∧
      decode 0x00000005 = .error .unknownOpcode ∧ decode 0x000000ff = .error .unknownOpcode ∧
      decode 0x00000112 = .error .argumentNotZero := ⟨rfl, rfl, rfl, rfl, rfl, rfl, rfl⟩

/-- The opcode table's numbering; a bit above bit 31 is no command (log 18). -/
theorem test_decodeTableWord :
    decodeTableWord 32 0x2001 = some (.setkey 32) ∧ decodeTableWord 32 0x00010002 = none ∧
      decodeTableWord 64 0x100000002 = none := by decide

/-! ### Reset and the first command -/

/-- 70_reset_and_hazards.md R271: right after reset a keyed command fails with UNINITIALIZED_KEY (VE1). -/
theorem test_first_command_without_key :
    after (step (State.reset.withFetchWord 32 0x00000002)) (fun e => e.statusWord == 0x00000024) = true := by
  decide +kernel

/-- A layer command runs as the first command after reset (VE24: `STATUS` reads 0 after `LT`). -/
theorem test_first_command_lt :
    after (step (State.reset.withFetchWord 32 0x00000014)) (fun e => e.statusWord == 0x00000000) = true := by
  decide +kernel

/-! ### The layer commands (95_test_vectors.md sections 2.1 to 2.3) -/

/-- VS1: `SBOX 0` on `B`. -/
theorem test_sbox_table_0 :
    after (exec (.sbox 0) (withBlk 0x00112233445566778899aabbccddeeff))
      (fun e => e.blk == hexBlock 0x3388ff11aa6655bbeedd4422770099cc) = true := by decide +kernel
/-- VS10: `SBOX 13` uses table 5. -/
theorem test_sbox_table_5 :
    after (exec (.sbox 13) (withBlk 0x00112233445566778899aabbccddeeff))
      (fun e => e.blk == hexBlock 0xff5522bb44aa99cc0033ee88dd667711) = true := by decide +kernel
/-- VS1: `SBOX_INV 0` on `B`. -/
theorem test_sboxInv_table_0 :
    after (exec (.sboxInv 0) (withBlk 0x00112233445566778899aabbccddeeff))
      (fun e => e.blk == hexBlock 0xdd33bb00aa6655cc11ee4477ff998822) = true := by decide +kernel
/-- VS11: `SBOX_INV 255` uses table 7. -/
theorem test_sboxInv_table_7 :
    after (exec (.sboxInv 255) (withBlk 0x00112233445566778899aabbccddeeff))
      (fun e => e.blk == hexBlock 0x330066dd99eeff8855ccbb77aa114422) = true := by decide +kernel
/-- 40_layers.md R138's worked example. -/
theorem test_ip :
    after (exec .ip (withBlk 0x000102030405060708090a0b0c0d0e0f))
      (fun e => e.blk == hexBlock 0x000035000000350f000035f0000035ff) = true := by decide +kernel
/-- 40_layers.md R139's worked example. -/
theorem test_fp :
    after (exec .fp (withBlk 0x000102030405060708090a0b0c0d0e0f))
      (fun e => e.blk == hexBlock 0x00005555005500550505050511111111) = true := by decide +kernel
/-- 40_layers.md R145's worked example. -/
theorem test_lt :
    after (exec .lt (withBlk 0x000102030405060708090a0b0c0d0e0f))
      (fun e => e.blk == hexBlock 0x06b107be60e35d6c9225b32ad477c9f8) = true := by decide +kernel
/-- 40_layers.md R145: the word core on one bit. -/
theorem test_lt_core : ltw ⟨0x00000001, 0, 0, 0⟩ = ⟨0x100c0000, 0x00004000, 0x00002800, 0x00800000⟩ := by decide
/-- 40_layers.md R146's worked example. -/
theorem test_ltInv :
    after (exec .ltInv (withBlk 0x000102030405060708090a0b0c0d0e0f))
      (fun e => e.blk == hexBlock 0xb12c8fdb7eea495df865c69237a30115) = true := by decide +kernel
/-- 95_test_vectors.md section 2.3: the inverse word core. -/
theorem test_ltInv_core :
    ltwi ⟨0x100dc680, 0x00004034, 0x06002805, 0x00800e00⟩ = ⟨0x00000001, 0x00000002, 0x00000003, 0x00000004⟩ := by
  decide

/-- 00_scope.md R9, 40_layers.md R133, R137: the commands use the tables the machine was built with (computed by hand
from `otherTables`: each nibble plus 1, then swapped; each bit `i` from bit `127 - i`). -/
theorem test_commands_use_the_configured_tables :
    let s (n : Nat) : State := { withBlk n with tables := otherTables }
    after (exec (.sbox 5) (s 0x00112233445566778899aabbccddeeff))
      (fun e => e.blk == hexBlock 0x112233445566778899aabbccddeeff00) = true ∧
    after (exec .ip (s 0x00000000000000000000000000000001))
      (fun e => e.blk == hexBlock 0x80000000000000000000000000000000) = true := by decide +kernel

/-! ### The key schedule (section 2.4) -/

/-- `SETKEY 32` of `zero32`: `PK[8]` and `PK[139]`. -/
theorem test_setkey :
    after (exec (.setkey 32) zeroMachine)
      (fun e => pkAt e.pk 8 == 0xbbcdccf1 && pkAt e.pk 139 == 0x90bef37d && e.statusWord == 0x00000002) = true := by
  decide +kernel
/-- VE7: `SETKEY 33` with a key set. -/
theorem test_setkey_33 :
    after (exec (.setkey 33) keyedMachine) (fun e => e.statusWord == 0x00000016) = true := by decide +kernel
/-- `ROUNDKEY 0` under `zero32`. -/
theorem test_roundkey_0 :
    after (exec (.roundkey 0) keyedMachine) (fun e => e.rk == hexBlock 0x5e47b93ffed294fb87da14ba7f946642) = true := by
  decide +kernel
/-- VE11: `ROUNDKEY 40` with no key, range before key. -/
theorem test_roundkey_40_without_key :
    after (exec (.roundkey 40) zeroMachine) (fun e => e.statusWord == 0x00000044) = true := by decide

/-! ### The cipher (section 2.5) -/

/-- The first row of the trace of `ENC(PK(zero32), Z)`. -/
theorem test_enc_round_0 :
    encRound defaultTables zeroPrekeys 0 (hexBlock 0) = hexBlock 0xc262aeac961550ead165671cd9d6009a := by decide +kernel
/-- The last row of the trace, from the end of round 30. -/
theorem test_enc_round_31 :
    encRound defaultTables zeroPrekeys 31 (hexBlock 0x76dce7bee2f6b48dc9036e17bbfade01) =
      hexBlock 0xb27e7d57d1a630d96cde6600234ebcd4 := by decide +kernel
/-- The end of `ENC` after the trace's last row: `FPF`, then `G`, is the golden vector. -/
theorem test_enc_end :
    groupReverse (fpf defaultTables (hexBlock 0xb27e7d57d1a630d96cde6600234ebcd4)) =
      hexBlock 0xafcb204af9389cd83f92fc3794a3701e := by decide +kernel
/-- The trace backwards: round 1 of `DEC` leads from the end of round 1 to the end of round 0. -/
theorem test_dec_round_1 :
    decRound defaultTables zeroPrekeys 1 (hexBlock 0x5acea590aa261b533916f9b08b6f6c69) =
      hexBlock 0xc262aeac961550ead165671cd9d6009a := by decide +kernel
/-- VE1 and VE2: no key. -/
theorem test_encrypt_without_key :
    after (exec .encrypt zeroMachine) (fun e => e.statusWord == 0x00000024) = true := by decide
theorem test_decrypt_without_key :
    after (exec .decrypt zeroMachine) (fun e => e.statusWord == 0x00000024) = true := by decide

/-! ### CBC (section 2.6) -/

/-- 43_cbc.md R221: `NONCE = 0x0807060504030201`. -/
theorem test_nonce_block :
    nonceBlock (nonceValue 0x08070605 0x04030201) = hexBlock 0x01020304050607080000000000000000 := by decide +kernel
/-- VE4: `CBC_INIT` with no key. -/
theorem test_cbcInit_without_key :
    after (exec .cbcInit zeroMachine) (fun e => e.statusWord == 0x00000024) = true := by decide
/-- Program P2, third block: the chunk `6162636465` of 5 bytes is padded with zeros whatever follows it. -/
theorem test_cbcEnc_pad :
    zeroPad (hexBlock 0x6162636465eeeeeeeeeeeeeeeeeeeeee) 5 = hexBlock 0x61626364650000000000000000000000 := by
  decide +kernel
/-- VE14: `CBC_ENC 17` with no key, range before key. -/
theorem test_cbcEnc_17_without_key :
    after (exec (.cbcEnc 17) zeroMachine) (fun e => e.statusWord == 0x00000044) = true := by decide
/-- W17: after `CBC_DEC` the `IV` is the ciphertext block consumed. -/
theorem test_cbcDec_iv :
    after (exec .cbcDec { keyedMachine with engine := { keyedMachine.engine with blk := hexBlock 0xb } })
      (fun e => e.iv == hexBlock 0xb) = true := by decide +kernel
/-- VE5: `CBC_DEC` with no key. -/
theorem test_cbcDec_without_key :
    after (exec .cbcDec zeroMachine) (fun e => e.statusWord == 0x00000024) = true := by decide

/-! ### The register window (section 2.8) -/

/-- VI7, VI8, VI9, VI10: writes of `STATUS` with `STATUS = 0x0000003e`. -/
theorem test_status_write_1_to_clear :
    let e : Engine := { zeroEngine with keyValid := true, errs := true, ovr := true, err := 3 }
    e.statusWord = 0x0000003e ∧ (e.writeRegister .status 0x00000004).statusWord = 0x0000003a ∧
      (e.writeRegister .status 0x00000008).statusWord = 0x00000036 ∧
      (e.writeRegister .status 0xfffffff3).statusWord = 0x0000003e ∧
      (e.writeRegister .status 0x0000000c).statusWord = 0x00000032 := by decide
/-- VI4: `BLK1` packs big-endian. -/
theorem test_packing :
    let e := zeroEngine.writeRegister (registerAt 0x034) 0x11223344
    e.readRegister (registerAt 0x034) = some 0x11223344 ∧ byteAt e.blk 4 = 0x11 ∧ byteAt e.blk 7 = 0x44 ∧
      byteAt e.blk 3 = 0x00 ∧ byteAt e.blk 8 = 0x00 := by decide +kernel
/-- VI13, VI16: a write while busy sets `OVR` and does nothing else. -/
theorem test_write_while_busy :
    (pendingMachine 2).engine.writeRegister (registerAt 0x030) 0xffffffff =
      { (pendingMachine 2).engine with ovr := true } ∧
    (pendingMachine 2).engine.writeRegister .status 0x0000000c = { (pendingMachine 2).engine with ovr := true } := by
  decide +kernel
/-- VI5, VI6: writes of read-only registers are ignored, `OVR` not set, busy or idle. -/
theorem test_readonly_writes_ignored :
    zeroEngine.writeRegister (registerAt 0x060) 0x12345678 = zeroEngine ∧
      zeroEngine.writeRegister (registerAt 0x420) 0x12345678 = zeroEngine ∧
      (pendingMachine 2).engine.writeRegister (registerAt 0x008) 0 = (pendingMachine 2).engine := by decide +kernel
/-- VI3: the reserved offsets at the edges of the map. -/
theorem test_reserved_offsets :
    registerAt 0x00c = .reserved ∧ registerAt 0x05c = .reserved ∧ registerAt 0x070 = .reserved ∧
      registerAt 0x3fc = .reserved ∧ registerAt 0x630 = .reserved ∧ registerAt 0xffc = .reserved ∧
      registerAt 0x62c = .pk 139 ∧ registerAt 0x06c = .rk 3 := by decide

/-! ### Witnesses: each statement's hypotheses can be met, at the edges of its ranges -/

theorem witness_DecodeOfEncodeIsTheCommand :
    (Instr.cbcEnc 255).WellFormed ∧ (Instr.setkey 0).WellFormed ∧ Instr.ltInv.WellFormed := by decide
theorem witness_EncodeOfDecodeIsTheWord : decode 0xff10 = .ok (.sbox 255) := rfl
theorem witness_DecodeIsTotalAndFollowsTheMap :
    (0x00010002#32).toNat / 65536 ≠ 0 ∧ (0x0000ff01#32).toNat / 65536 = 0 ∧ (0x0000ff01#32).toNat % 256 = 0x01 ∧
      (0x00000022#32).toNat % 256 = 0x22 ∧ (0x00000022#32).toNat / 256 % 256 = 0 ∧
      (0x00000122#32).toNat / 256 % 256 ≠ 0 ∧
      (0x00000000#32).toNat % 256 ∉ [0x01, 0x04, 0x10, 0x11, 0x21, 0x02, 0x03, 0x12, 0x13, 0x14, 0x15, 0x20, 0x22] ∧
      (opcodeRow (.setkey 0)).selects 0x2001 ∧ (opcodeRow (.setkey 9)).selects 0x2001 := by
  refine ⟨?_, ?_, ?_, ?_, ?_, ?_, ?_, ?_, ?_⟩ <;> first | decide | rfl
theorem witness_WordsDecodeToTheRowThatSelectsThem :
    decode 0xff21 = .ok (.cbcEnc 255) ∧ (opcodeRow .lt).selects 0x14 := ⟨rfl, rfl⟩
theorem witness_AssertingResetClearsStatusAndAbandonsTheCommand :
    { pendingMachine 2 with turns := [.assertReset] }.turns = .assertReset :: [] := rfl
theorem witness_AccessesUnderResetAreIgnoredOrFree :
    let s : State := { zeroMachine with rst := true, turns := [.engine, .releaseReset] }
    s.rst = true ∧ 0 < 4096 ∧ 0 % 4 = 0 ∧ 4092 < 4096 ∧ 4092 % 4 = 0 ∧ s.turns = .engine :: [.releaseReset] ∧
      { s with turns := [.releaseReset] }.turns = .releaseReset :: [] := ⟨rfl, by decide, rfl, by decide, rfl, rfl, rfl⟩
theorem witness_EngineTurnRunsTheDecodedCommand :
    (pendingMachine 2).rst = false ∧ (pendingMachine 2).engine.pending = some 2 ∧ decode 2 = .ok .encrypt ∧
      (pendingMachine 2).turns = [] ∧ { pendingMachine 2 with turns := [.engine] }.turns = .engine :: [] :=
  ⟨rfl, rfl, rfl, rfl, rfl⟩
theorem witness_IllegalWordsReportIllegalCommand :
    let s (w : Word) : State := { pendingMachine w with turns := [.engine] }
    (s 0).rst = false ∧ (s 0).engine.pending = some 0 ∧ (s 0).turns = .engine :: [] ∧
      (0x00010002#32).toNat / 65536 ≠ 0 ∧
      (0x000000ff#32).toNat % 256 ∉ [0x01, 0x02, 0x03, 0x04, 0x10, 0x11, 0x12, 0x13, 0x14, 0x15, 0x20, 0x21, 0x22] ∧
      (0x0000ff22#32).toNat % 256 ∈ [0x02, 0x03, 0x12, 0x13, 0x14, 0x15, 0x20, 0x22] ∧
      (0x0000ff22#32).toNat / 256 % 256 ≠ 0 := by
  refine ⟨rfl, rfl, rfl, ?_, ?_, ?_, ?_⟩ <;> decide
theorem witness_HostTurnPerformsTheNextStatement :
    let s : State := { zeroMachine with program := [rdOp 0x004] }
    s.program = .bus ⟨busAddress 0x004, .word, .read⟩ :: [] ∧ s.turns = [] ∧ s.engine.pending = none ∧
      { s with turns := [.host] }.turns = .host :: [] := ⟨rfl, rfl, rfl, rfl⟩
theorem witness_PollRepeatsUntilBusyIsZero :
    let s (e : Engine) : State := { machineOf e with program := [.poll], turns := [.host] }
    (s zeroEngine).rst = false ∧ (s zeroEngine).program = .poll :: [] ∧ (s zeroEngine).turns = .host :: [] ∧
      (s zeroEngine).engine.busy = false ∧ (s (pendingMachine 2).engine).engine.busy = true ∧
      { s zeroEngine with turns := [] }.turns = [] := ⟨rfl, rfl, rfl, rfl, rfl, rfl⟩
theorem witness_IdleEngineAndEndedHostWait :
    zeroMachine.engine.pending = none ∧ zeroMachine.turns = [] ∧ zeroMachine.program = [] ∧
      { zeroMachine with turns := [.engine] }.turns = .engine :: [] ∧
      (pendingMachine 2).program = [] ∧ (pendingMachine 2).engine.busy = true ∧
      { pendingMachine 2 with turns := [.host] }.turns = .host :: [] := ⟨rfl, rfl, rfl, rfl, rfl, rfl, rfl⟩
theorem witness_WithNoTurnListedThePendingCommandElseTheHostMoves :
    zeroMachine.turns = [] ∧ zeroMachine.engine.busy = false ∧ (pendingMachine 0).turns = [] ∧
      (pendingMachine 0).engine.busy = true ∧ (pendingMachine 0).rst = false ∧
      (pendingMachine 0).engine.pending = some 0 ∧ decode 0 = .error .unknownOpcode := ⟨rfl, rfl, rfl, rfl, rfl, rfl, rfl⟩
/-- A state that meets the hypotheses with no reset listed, and one with a reset listed. -/
theorem witness_PendingCommandCompletesUnlessAListedResetAbandonsIt :
    let s (ts : List Turn) : State := { pendingMachine 2 with program := [.poll], turns := ts }
    ∀ ts, (s ts).rst = false ∧ (s ts).engine.pending = some 2 ∧ (s ts).HostLegal ∧
      Turn.assertReset ∉ (s [.host, .host]).turns ∧ Turn.assertReset ∈ (s [.host, .assertReset]).turns :=
  fun ts => ⟨rfl, rfl, by simp [State.HostLegal, HostOp.wellFormed], by decide, by decide⟩
theorem witness_StatusReadsItsFieldsAndClearsOnlyItsStickyFlags :
    zeroMachine.rst = false ∧ zeroMachine.engine.pending = none ∧ 0 < 4 ∧ 3 < 4 ∧ 8 ≤ 8 := by decide
theorem witness_IdleReadAnswersTheRegisterAtTheOffset :
    zeroMachine.rst = false ∧ zeroMachine.engine.pending = none ∧ (0 < 4096 ∧ 0 % 4 = 0) ∧
      (0x02C < 4096 ∧ 0x02C % 4 = 0 ∧ 0x02C = 0x010 + 4 * 7) ∧ 0x03C = 0x030 + 4 * 3 ∧ 0x04C = 0x040 + 4 * 3 ∧
      0x06C = 0x060 + 4 * 3 ∧ 0x62C = 0x400 + 4 * (139 : Fin 140).val ∧ 0x630 ≤ 0xFFC ∧ 0xFFC < 4096 := by decide
theorem witness_BusyReadOfADataRegisterIsAFreeDraw :
    (pendingMachine 2).rst = false ∧ (pendingMachine 2).engine.busy = true ∧ 0x010 ≤ 0x010 ∧ 0x62C ≤ 0x62C ∧
      ¬(0x010 ≤ 0x058 ∧ 0x058 ≤ 0x054 ∨ 0x060 ≤ 0x058 ∧ 0x058 ≤ 0x06C ∨ 0x400 ≤ 0x058 ∧ 0x058 ≤ 0x62C) := by decide
theorem witness_ReadsChangeNoState :
    ∃ t, busAccess ⟨busAddress 0x004, .word, .read⟩ zeroMachine = .next t :=
  ⟨_, busAccess_read zeroMachine (by decide) (by decide)⟩
theorem witness_WriteActsAsTheRegisterMapSays :
    zeroMachine.rst = false ∧ zeroMachine.engine.busy = false ∧ (pendingMachine 2).engine.busy = true ∧
      0x054 < 0x058 ∧ 0x058 ≤ 0x058 ∧ 0x054 % 4 = 0 ∧ 0x02C = 0x010 + 4 * 7 ∧ 0x03C = 0x030 + 4 * 3 ∧
      0x04C = 0x040 + 4 * 3 := by decide
theorem witness_WrittenDataWordReadsBackAndNoOtherWordChanges :
    zeroMachine.rst = false ∧ zeroMachine.engine.pending = none ∧ 0x010 ≤ 0x010 ∧ 0x054 ≤ 0x054 ∧ 0x010 % 4 = 0 ∧
      0x054 % 4 = 0 ∧ 4092 < 4096 ∧ 4092 % 4 = 0 ∧ 4092 ≠ 0x054 := by decide
theorem witness_SubWordAndMisalignedAccessesAreRefused : 4095 < 4096 ∧ 4095 % 4 ≠ 0 ∧ 1 % 4 ≠ 0 := by decide
theorem witness_AccessesOutsideTheWindowFault :
    Config.base + 4096 ≤ Config.base + 4096 ∧ (Config.basePage ≠ 0 → Config.base - 1 < Config.base) := by
  refine ⟨Nat.le_refl _, fun h => ?_⟩
  simp only [Config.base]
  omega
theorem witness_LegalHostProgramsNeverStopTheMachine : { zeroMachine with program := [.poll] }.HostLegal := by
  simp [State.HostLegal, HostOp.wellFormed]
theorem witness_AssembledStatementsAreLegalAccesses :
    ∀ st ∈ [HostStmt.loadkey (List.replicate 32 0), .wr (.offset 4092) 0, .rd (.named (.pk 139)), .command .ip],
      st.wellFormed = true := by decide
theorem witness_LoadStatementsFillTheirRegister :
    let s : State := { zeroMachine with program := expand (.loadblk (hexBlock 7)), turns := List.replicate 4 .host }
    s.rst = false ∧ s.engine.pending = none ∧ s.program = expand (.loadblk (hexBlock 7)) ++ [] ∧
      s.turns = List.replicate 4 .host ++ [] := ⟨rfl, rfl, rfl, rfl⟩
theorem witness_LoadkeyFillsTheKeyBytes :
    let k : List Byte := List.replicate 31 1
    let s : State := { zeroMachine with program := expand (.loadkey k), turns := List.replicate 8 .host }
    s.rst = false ∧ s.engine.pending = none ∧ 1 ≤ k.length ∧ k.length ≤ 32 ∧ s.program = expand (.loadkey k) ++ [] ∧
      s.turns = List.replicate ((k.length + 3) / 4) .host ++ [] := ⟨rfl, rfl, by decide, by decide, by simp, rfl⟩
/-- The hypothesis `T.Valid` of the statements over all permutation tables: the default tables meet it, and so do
others. -/
theorem witness_tables : defaultTables.Valid ∧ otherTables.Valid ∧ otherTables ≠ defaultTables := by decide +kernel
theorem witness_DefaultTablesPermuteTheBitsByTheirFormulas : zeroMachine.tables = defaultTables := rfl
theorem witness_permutation_tables_and_key :
    keyedMachine.tables.Valid ∧ keyedMachine.engine.keyValid = true := ⟨defaultTables_valid, rfl⟩
theorem witness_NoStepChangesTheTables :
    (∃ t, step { zeroMachine with turns := [.assertReset] } = .next t) ∧ ∃ t, exec .ip zeroMachine = .next t :=
  ⟨⟨_, rfl⟩, ⟨_, rfl⟩⟩
/-- A state with a key set and one without: the hypotheses of the keyed commands. -/
theorem witness_keyed_commands : keyedMachine.engine.keyValid = true ∧ zeroMachine.engine.keyValid = false := ⟨rfl, rfl⟩
theorem witness_SetkeyExpandsThePaddedKey :
    (1 ≤ 1 ∧ 1 ≤ 32) ∧ (1 ≤ 32 ∧ 32 ≤ 32) ∧ (8 ≤ 8 ∧ 8 < 140) ∧ (8 ≤ 139 ∧ 139 < 140) ∧ (0 = 0 ∨ 32 < 0) ∧
      (33 = 0 ∨ 32 < 33) := by decide
theorem witness_SetkeyReadsOnlyTheKeyBytes :
    1 ≤ 31 ∧ 31 ≤ 32 ∧ ∀ n < 31, byteAt (hexKey 0) n = byteAt (hexKey 0xff) n := by decide +kernel
theorem witness_PaddingByteAffectsTheSchedule :
    1 ≤ 31 ∧ 31 < 32 ∧ (∀ n < 31, byteAt (hexKey 0x1ff) n = byteAt (hexKey 0x100) n) ∧
      ∀ n < 32, 31 ≤ n → byteAt (hexKey 0x100) n = 0 := by decide +kernel
theorem witness_RoundkeyCommandDerivesTheRoundKey :
    0 ≤ 32 ∧ 32 ≤ 32 ∧ 32 < 33 ∧ keyedMachine.engine.keyValid = true ∧ zeroMachine.engine.keyValid = false :=
  ⟨by decide, by decide, by decide, rfl, rfl⟩
theorem witness_CbcEncChainsAndEmitsTheCipherBlock :
    (1 ≤ 1 ∧ 1 ≤ 16) ∧ (1 ≤ 16 ∧ 16 ≤ 16) ∧ (0 = 0 ∨ 16 < 0) ∧ (17 = 0 ∨ 16 < 17) := by decide
theorem witness_CbcEncIgnoresBytesPastTheChunk :
    keyedMachine.engine.keyValid = true ∧ keyedMachine.tables = defaultTables ∧
      ∀ m < 5, byteAt (hexBlock 0x6162636465eeeeeeeeeeeeeeeeeeeeee) m =
        byteAt (hexBlock 0x61626364650000000000000000000000) m := by decide +kernel
theorem witness_ReportedCodeIsTheFirstThatApplies :
    decode 0x00010002 = .error .reservedBits ∧ decode 0x2804 = .ok (.roundkey 40) := ⟨rfl, rfl⟩
theorem witness_FailedCommandsChangeOnlyStatus :
    ∃ t, completeCommand 2 zeroMachine = .next t ∧ t.engine.err ≠ 0 := ⟨_, rfl, by decide⟩
theorem witness_CommandsUseOnlyTheRegistersOfTheirRow :
    let s' : State := machineOf { zeroEngine with rk := hexBlock 1, iv := hexBlock 2 }
    (∃ t, exec .ip zeroMachine = .next t) ∧ (∃ t, exec .ip s' = .next t) ∧
      zeroMachine.tables = s'.tables ∧ ∀ d ∈ registersRead .ip, d.same zeroMachine.engine s'.engine :=
  ⟨⟨_, rfl⟩, ⟨_, rfl⟩, rfl, by simp [registersRead, DataReg.same, machineOf, zeroMachine]⟩
/-- The tables that `ResetMeetsTheInvariant` quantifies over, other than the defaults. -/
theorem witness_ResetMeetsTheInvariant : otherTables.Valid := by decide +kernel
/-- A state that meets the invariant, with a key set and a command pending, and its step. -/
theorem witness_EveryStepKeepsTheInvariant :
    let s : State := { keyedMachine with engine := { keyedMachine.engine with pending := some 2 } }
    s.Inv ∧ ∃ t, step s = .next t :=
  ⟨⟨defaultTables_valid, ⟨by decide, fun _ => ⟨Vector.replicate 32 0, 32, by decide, by decide, rfl⟩⟩, by simp [keyedMachine, machineOf]⟩,
    ⟨_, rfl⟩⟩
theorem witness_KeyValidIsSetBySetkeyAndClearedByReset :
    after (step (pendingMachine 0x2001)) (fun e => e.keyValid) = true ∧ zeroEngine.keyValid = false ∧
      after (step { keyedMachine with turns := [.assertReset] }) (fun e => !e.keyValid) = true ∧
      keyedMachine.engine.keyValid = true := by decide +kernel
theorem witness_PrekeysAndRoundKeyChangeOnlyByTheirCommands :
    after (step (pendingMachine 0x2001)) (fun e => e.pk != zeroEngine.pk && e.err == 0) = true ∧
      after (step { keyedMachine with engine := { keyedMachine.engine with pending := some 4 } })
        (fun e => e.rk != zeroEngine.rk && e.err == 0) = true := by decide +kernel
theorem witness_RunningCommandsNeverSeeTheirInputsChange :
    ∃ t, step { pendingMachine 2 with turns := [.host] } = .next t ∧ (pendingMachine 2).engine.busy = true ∧
      t.engine.busy = true := ⟨_, rfl, rfl, rfl⟩

end Sys2Proof.Tests
end

section
/-! The `STATUS` register: its bits (10_state.md R38) and what an idle write of it does (R35, R36). -/

namespace Sys2Proof.Machine

/-- A flag placed at bit `k` of a word sets that bit and no other. -/
theorem getLsbD_flag_shiftLeft (c : Bool) {k : Nat} (hk : k < 32) (b : Nat) :
    (BitVec.ofNat 32 c.toNat <<< k).getLsbD b = (decide (b = k) && c) := by
  cases c with
  | false => simp
  | true =>
    rw [Bool.toNat_true, BitVec.getLsbD_shiftLeft, BitVec.getLsbD_one, Bool.eq_iff_iff]
    simp only [Nat.ofNat_pos, decide_true, Bool.true_and, Bool.and_true, Bool.and_eq_true, decide_eq_true_eq,
      Bool.not_eq_eq_eq_not, Bool.not_true, decide_eq_false_iff_not, not_lt]
    omega

/-- The code `ERR` placed at bit 4 of a word is not cut off at bit 31. -/
theorem getLsbD_err_shiftLeft (c : BitVec 4) (b : Nat) :
    (c.setWidth 32 <<< 4).getLsbD b = (decide (4 ≤ b) && c.getLsbD (b - 4)) := by
  rw [BitVec.getLsbD_shiftLeft, BitVec.getLsbD_setWidth]
  by_cases hb : b < 8
  · simp [show b < 32 by omega, show b - 4 < 32 by omega, ← decide_not]
  · simp [BitVec.getLsbD_of_ge c (b - 4) (by omega)]

/-- Every bit of `STATUS` (10_state.md R38): the field `ERR` from bit 4 on, below it one flag a bit. -/
theorem Engine.statusWord_getLsbD (e : Engine) (b : Nat) :
    e.statusWord.getLsbD b =
      (decide (4 ≤ b) && e.err.getLsbD (b - 4) || decide (b = 3) && e.ovr || decide (b = 2) && e.errs ||
        decide (b = 1) && e.keyValid || decide (b = 0) && e.busy) := by
  have hbusy := getLsbD_flag_shiftLeft e.busy (k := 0) (by decide) b
  rw [BitVec.shiftLeft_zero] at hbusy
  simp (disch := decide) only [Engine.statusWord, BitVec.getLsbD_or, getLsbD_err_shiftLeft, hbusy, getLsbD_flag_shiftLeft]

/-- At reset, whatever the free draws, `STATUS` is 0 (10_state.md R61). -/
@[simp] theorem Engine.atReset_statusWord (d : Nat) : (Engine.atReset d).statusWord = 0 := by
  refine BitVec.eq_of_getLsbD_eq fun b _ => ?_
  simp [Engine.statusWord_getLsbD, Engine.busy]

/-- A host write of `STATUS` while the engine is idle and out of reset (20_memory.md R77). -/
theorem busAccess_write_status_idle {s : State} (v : Word) (hr : s.rst = false) (hp : s.engine.pending = none) :
    busAccess ⟨busAddress 0x004, .word, .write v⟩ s = .next { s with engine := s.engine.writeStatus v } := by
  rw [busAccess_write s v (by decide) (by decide)]
  simp [State.writeWord, hr, show registerAt 0x004 = .status from rfl, Engine.writeRegister, writable, Engine.busy, hp,
    Engine.writeIdle]

/-- Settles O16: every bit of `STATUS` from `Engine.statusWord_getLsbD`, the idle write from
`busAccess_write_status_idle`. -/
theorem statusReadsItsFieldsAndClearsOnlyItsStickyFlags :
    Obligations.StatusReadsItsFieldsAndClearsOnlyItsStickyFlags := by
  unfold Obligations.StatusReadsItsFieldsAndClearsOnlyItsStickyFlags
  refine ⟨fun e => ⟨?busy, ?keyValid, ?errs, ?ovr, ?err, ?high⟩, Engine.atReset_statusWord 0, fun s v hr hp =>
    ⟨_, busAccess_write_status_idle v hr hp, rfl, ?clearErrs, ?clearOvr⟩⟩
  case busy => rw [Engine.statusWord_getLsbD]; simp
  case keyValid => rw [Engine.statusWord_getLsbD]; simp
  case errs => rw [Engine.statusWord_getLsbD]; simp
  case ovr => rw [Engine.statusWord_getLsbD]; simp
  case err =>
    intro b _
    simp [Engine.statusWord_getLsbD, show 4 + b ≠ 3 by omega, show 4 + b ≠ 2 by omega, show 4 + b ≠ 1 by omega]
  case high =>
    intro b hb
    have herr : e.err.getLsbD (b - 4) = false := BitVec.getLsbD_of_ge _ _ (by omega)
    simp [Engine.statusWord_getLsbD, herr, show b ≠ 3 by omega, show b ≠ 2 by omega, show b ≠ 1 by omega,
      show b ≠ 0 by omega]
  case clearErrs => rw [Engine.writeStatus_errs]; cases v.getLsbD 2 <;> simp
  case clearOvr => rw [Engine.writeStatus_ovr]; cases v.getLsbD 3 <;> simp

end Sys2Proof.Machine
end

section
/-! The register window, offset by offset: which register an aligned offset names (20_memory.md R71), what a read
answers while busy (R81) and what a write does (R77). -/

namespace Sys2Proof.Machine

/-! ### The offsets of the window -/

/-- An aligned offset is reserved, or it is the offset of the register it names (20_memory.md R71). -/
theorem registerAt_reserved_or_named {off : Nat} (ha : off % 4 = 0) :
    (registerAt off = .reserved ∧
      (off = 0x00C ∨ 0x058 ≤ off ∧ off ≤ 0x05C ∨ 0x070 ≤ off ∧ off ≤ 0x3FC ∨ 0x630 ≤ off)) ∨
    ∃ r, registerAt off = r ∧ off = offsetOf r ∧ r.wellFormed = true := by
  by_cases h : registerAt off = .reserved
  · refine .inl ⟨h, ?_⟩
    unfold registerAt at h
    split_ifs at h
    omega
  · obtain ⟨hoff, hwf⟩ := registerAt_named ha h
    exact .inr ⟨_, rfl, hoff.symm, hwf⟩

/-- The writable registers are those below 0x058, `INFO` and the reserved 0x00C excepted (20_memory.md R71, R75). -/
theorem writable_registerAt {off : Nat} (ha : off % 4 = 0) :
    writable (registerAt off) = true ↔ off ≠ 0x008 ∧ off ≠ 0x00C ∧ off < 0x058 := by
  obtain ⟨hr, hres⟩ | ⟨r, hr, rfl, hwf⟩ := registerAt_reserved_or_named ha
  · simp only [hr, writable, Bool.false_eq_true, false_iff]
    omega
  · rw [hr]
    cases r with
    | cmd | status | info | nonceLo | nonceHi => decide
    | reserved => exact absurd hwf (by decide)
    | key n | blk n | iv n =>
      simp only [RegName.wellFormed, decide_eq_true_eq] at hwf
      simp only [writable, offsetOf, true_iff]
      omega
    | rk n | pk n =>
      simp only [writable, offsetOf, Bool.false_eq_true, false_iff]
      omega

/-- The offsets of the data registers and of the prekey window (20_memory.md R71, R81). -/
def IsDataOffset (off : Nat) : Prop :=
  0x010 ≤ off ∧ off ≤ 0x054 ∨ 0x060 ≤ off ∧ off ≤ 0x06C ∨ 0x400 ≤ off ∧ off ≤ 0x62C

/-! ### Reads -/

/-- While busy a data register has no value to answer, so a read of it draws one (20_memory.md R81). -/
theorem readRegister_data_busy {e : Engine} (hb : e.busy = true) {off : Nat} (ha : off % 4 = 0)
    (hd : IsDataOffset off) : e.readRegister (registerAt off) = none := by
  unfold IsDataOffset at hd
  obtain ⟨-, hres⟩ | ⟨r, hr, rfl, -⟩ := registerAt_reserved_or_named ha
  · omega
  · rw [hr]
    cases r with
    | cmd | status | info | reserved => simp [offsetOf] at hd
    | key | blk | iv | nonceLo | nonceHi | rk | pk => exact if_pos hb

/-- `STATUS`, `INFO`, `CMD` and the reserved offsets answer their values, busy or idle (20_memory.md R76, R81). -/
theorem readRegister_not_data (e : Engine) {off : Nat} (ha : off % 4 = 0) (hd : ¬IsDataOffset off) :
    e.readRegister (registerAt off) =
      some (if off = 0x004 then e.statusWord else if off = 0x008 then infoWord else 0) := by
  unfold IsDataOffset at hd
  obtain rfl | rfl | rfl | hres : off = 0x000 ∨ off = 0x004 ∨ off = 0x008 ∨
      (off = 0x00C ∨ 0x058 ≤ off ∧ off ≤ 0x05C ∨ 0x070 ≤ off ∧ off ≤ 0x3FC ∨ 0x630 ≤ off) := by omega
  · rfl
  · rfl
  · rfl
  · rw [registerAt_reserved hres, if_neg (by omega), if_neg (by omega)]
    rfl

/-- Out of reset a register that has a value answers it, and the read changes nothing (20_memory.md R76). -/
theorem readWord_of_value {s : State} {off : Nat} {v : Word} (hrst : s.rst = false)
    (h : s.engine.readRegister (registerAt off) = some v) : s.readWord off = (v, s) := by
  simp [State.readWord, hrst, h]

/-- Out of reset a register that has no value answers a free draw (20_memory.md R81). -/
theorem readWord_of_free {s : State} {off : Nat} (hrst : s.rst = false)
    (h : s.engine.readRegister (registerAt off) = none) : s.readWord off = s.draw := by
  simp [State.readWord, hrst, h]

/-- Settles O18: the offsets of the data registers draw (`readRegister_data_busy`), the others answer
(`readRegister_not_data`). -/
theorem busyReadOfADataRegisterIsAFreeDraw : Obligations.BusyReadOfADataRegisterIsAFreeDraw := by
  unfold Obligations.BusyReadOfADataRegisterIsAFreeDraw
  intro s off hrst hb hoff ha
  rw [busAccess_read s hoff ha]
  refine ⟨fun hd => ?draw, fun hd => ?defined⟩
  case draw =>
    rw [readWord_of_free hrst (readRegister_data_busy hb ha hd)]
    rfl
  case defined =>
    rw [readWord_of_value hrst (readRegister_not_data s.engine ha hd)]
    refine ⟨_, rfl, fun h => if_pos h, fun h => ?_, fun ⟨h4, h8⟩ => ?_⟩
    · rw [if_neg (by omega), if_pos h]
      rfl
    · rw [if_neg h4, if_neg h8]

/-! ### Writes -/

/-- Out of reset a word write in the window is the write of the register at its offset (20_memory.md R77). -/
theorem busAccess_write_of_released {s : State} {off : Nat} (v : Word) (hrst : s.rst = false) (hoff : off < 4096)
    (ha : off % 4 = 0) :
    busAccess ⟨busAddress off, .word, .write v⟩ s =
      .next { s with engine := s.engine.writeRegister (registerAt off) v } := by
  rw [busAccess_write s v hoff ha]
  simp [State.writeWord, hrst]

/-- A write of a read-only register or a reserved offset has no effect (20_memory.md R75). -/
theorem writeRegister_of_not_writable {e : Engine} {r : RegName} (v : Word) (hw : writable r = false) :
    e.writeRegister r v = e := by
  simp [Engine.writeRegister, hw]

/-- While busy a write of a writable register sets `OVR` only (10_state.md R36). -/
theorem writeRegister_of_busy {e : Engine} {r : RegName} (v : Word) (hw : writable r = true) (hb : e.busy = true) :
    e.writeRegister r v = { e with ovr := true } := by
  simp [Engine.writeRegister, hw, hb]

/-- While idle a write is the idle write of its register (20_memory.md R75, R77). -/
theorem writeRegister_of_idle {e : Engine} (r : RegName) (v : Word) (hb : e.busy = false) :
    e.writeRegister r v = e.writeIdle r v := by
  cases r <;> simp [Engine.writeRegister, writable, hb, Engine.writeIdle]

/-- `ERRS` and `OVR` are cleared by a 1, and nothing else changes (10_state.md R35, R36). -/
theorem writeStatus_eq (v : Word) (e : Engine) :
    e.writeStatus v = { e with
      errs := if v.getLsbD 2 then false else e.errs
      ovr := if v.getLsbD 3 then false else e.ovr } := by
  unfold Engine.writeStatus
  cases v.getLsbD 2 <;> cases v.getLsbD 3 <;> simp

/-- The bytes of a buffer after a register write (20_memory.md R72): the word's four in big-endian order, the others as
they were. -/
theorem byteAt_putWord_extract {n : Nat} (b : Vector Byte n) (k : Nat) (v : Word) {j : Nat} (hj : j < n) :
    byteAt (putWord b k v) j = if j / 4 = k then v.extractLsb' (24 - 8 * (j % 4)) 8 else byteAt b j := by
  rw [byteAt_putWord b k v hj, wordByte_eq_extract]

/-- Settles O20: `writable_registerAt` tells the offsets a write acts on, busy writes are `writeRegister_of_busy`,
and each idle write is the one of the register that the offset names. -/
theorem writeActsAsTheRegisterMapSays : Obligations.WriteActsAsTheRegisterMapSays := by
  unfold Obligations.WriteActsAsTheRegisterMapSays
  intro s off v hrst hoff ha
  refine ⟨_, busAccess_write_of_released v hrst hoff ha, fun hro => ?readOnly, fun hw => ⟨fun hb => ?busy, fun hb => ?_⟩⟩
  case readOnly =>
    refine writeRegister_of_not_writable v (Bool.eq_false_iff.2 fun hw => ?_)
    have := (writable_registerAt ha).1 hw
    omega
  case busy => exact writeRegister_of_busy v ((writable_registerAt ha).2 hw) hb
  rw [writeRegister_of_idle _ v hb]
  refine ⟨?cmd, ?status, ?key, ?blk, ?iv, ?nonceLo, ?nonceHi⟩
  case cmd => rintro rfl; rfl
  case status => rintro rfl; exact writeStatus_eq v s.engine
  case key =>
    intro n hn h
    rw [registerAt_key hn h]
    exact ⟨rfl, fun j hj => byteAt_putWord_extract _ n v hj⟩
  case blk =>
    intro n hn h
    rw [registerAt_blk hn h]
    exact ⟨rfl, fun j hj => byteAt_putWord_extract _ n v hj⟩
  case iv =>
    intro n hn h
    rw [registerAt_iv hn h]
    exact ⟨rfl, fun j hj => byteAt_putWord_extract _ n v hj⟩
  case nonceLo => rintro rfl; rfl
  case nonceHi => rintro rfl; rfl

end Sys2Proof.Machine
end

section
/-! The command word (30_encoding.md R100 to R104): its three fields, the row that selects it (R102), the command it
decodes to (R103), and what an illegal word does (R104). -/

namespace Sys2Proof

/-! ### The fields of a word -/

theorem opField_toNat (w : Word) : (opField w).toNat = w.toNat % 256 := by
  simp [opField, BitVec.extractLsb'_toNat]

theorem argField_toNat (w : Word) : (argField w).toNat = w.toNat / 256 % 256 := by
  simp [argField, BitVec.extractLsb'_toNat, Nat.shiftRight_eq_div_pow]

theorem rsvField_toNat (w : Word) : (rsvField w).toNat = w.toNat / 65536 := by
  have := w.isLt
  simp only [rsvField, BitVec.extractLsb'_toNat, Nat.shiftRight_eq_div_pow]
  omega

/-- A word is its three fields (30_encoding.md R100). -/
theorem eq_iff_fields (v w : Word) :
    v = w ↔ rsvField v = rsvField w ∧ argField v = argField w ∧ opField v = opField w := by
  refine ⟨by rintro rfl; simp, fun ⟨hrsv, harg, hop⟩ => BitVec.eq_of_toNat_eq ?_⟩
  rw [← BitVec.toNat_inj, rsvField_toNat, rsvField_toNat] at hrsv
  rw [← BitVec.toNat_inj, argField_toNat, argField_toNat] at harg
  rw [← BitVec.toNat_inj, opField_toNat, opField_toNat] at hop
  omega

/-- A row's test, field by field (30_encoding.md R102). -/
theorem OpcodeRow.selects_iff_fields (r : OpcodeRow) (w : Word) :
    r.selects w ↔ rsvField w &&& rsvField r.mask = rsvField r.pattern ∧
      argField w &&& argField r.mask = argField r.pattern ∧ opField w &&& opField r.mask = opField r.pattern := by
  simp only [OpcodeRow.selects, eq_iff_fields, rsvField, argField, opField, BitVec.extractLsb'_and]

/-! ### The row of a command -/

/-- The `OP` of a command's row (30_encoding.md R102). -/
def Instr.opcode : Instr → Byte
  | .setkey _ => 0x01
  | .encrypt => 0x02
  | .decrypt => 0x03
  | .roundkey _ => 0x04
  | .sbox _ => 0x10
  | .sboxInv _ => 0x11
  | .ip => 0x12
  | .fp => 0x13
  | .lt => 0x14
  | .ltInv => 0x15
  | .cbcInit => 0x20
  | .cbcEnc _ => 0x21
  | .cbcDec => 0x22

/-- No command has an `OP` outside the map (30_encoding.md R104). -/
theorem opcode_mem_map (i : Instr) :
    i.opcode.toNat ∈ [0x01, 0x02, 0x03, 0x04, 0x10, 0x11, 0x12, 0x13, 0x14, 0x15, 0x20, 0x21, 0x22] := by
  cases i <;> simp [Instr.opcode]

/-- These `OP` values are those of the commands that take no operand (30_encoding.md R104). -/
theorem operand?_eq_none_of_opcode_mem {i : Instr}
    (h : i.opcode.toNat ∈ [0x02, 0x03, 0x12, 0x13, 0x14, 0x15, 0x20, 0x22]) : i.operand? = none := by
  cases i with
  | setkey | roundkey | sbox | sboxInv | cbcEnc => simp [Instr.opcode] at h
  | encrypt | decrypt | ip | fp | lt | ltInv | cbcInit | cbcDec => rfl

/-- The command of the same row whose operand, if the row takes one, is `arg`. -/
def Instr.withArg (arg : Nat) : Instr → Instr
  | .setkey _ => .setkey arg
  | .roundkey _ => .roundkey arg
  | .sbox _ => .sbox arg
  | .sboxInv _ => .sboxInv arg
  | .cbcEnc _ => .cbcEnc arg
  | i => i

@[simp] theorem opcodeRow_withArg (arg : Nat) (i : Instr) : opcodeRow (i.withArg arg) = opcodeRow i := by
  cases i <;> rfl

/-- The operand of a command with operand `arg` is `arg`. -/
theorem operand?_withArg {arg v : Nat} {i : Instr} (h : (i.withArg arg).operand? = some v) : v = arg := by
  cases i <;> simp_all [Instr.withArg, Instr.operand?]

/-- The bits a row tests: all of them, but for `ARG` when the row takes an operand (30_encoding.md R102). -/
theorem opcodeRow_mask (i : Instr) :
    (opcodeRow i).mask = if i.operand? = none then 0xFFFFFFFF else 0xFFFF00FF := by
  cases i <;> rfl

/-- A row asks for its `OP`, and for zeros in the other two fields (30_encoding.md R102). -/
theorem opcodeRow_pattern_fields (i : Instr) :
    rsvField (opcodeRow i).pattern = 0 ∧ argField (opcodeRow i).pattern = 0 ∧
      opField (opcodeRow i).pattern = i.opcode := by
  cases i <;> simp [opcodeRow, rsvField, argField, opField, Instr.opcode]

/-- The row of a command fixes `RSV`, `OP` and, when it takes no operand, `ARG` (30_encoding.md R102). -/
theorem opcodeRow_selects_iff (i : Instr) (w : Word) :
    (opcodeRow i).selects w ↔
      rsvField w = 0 ∧ (i.operand? = none → argField w = 0) ∧ opField w = i.opcode := by
  obtain ⟨hrsv, harg, hop⟩ := opcodeRow_pattern_fields i
  rw [OpcodeRow.selects_iff_fields, opcodeRow_mask, hrsv, harg, hop]
  by_cases h : i.operand? = none
  · rw [if_pos h, show rsvField 0xFFFFFFFF = BitVec.allOnes 16 from rfl,
      show argField 0xFFFFFFFF = BitVec.allOnes 8 from rfl, show opField 0xFFFFFFFF = BitVec.allOnes 8 from rfl]
    simp only [BitVec.and_allOnes, h, true_imp_iff]
  · rw [if_neg h, show rsvField 0xFFFF00FF = BitVec.allOnes 16 from rfl,
      show argField 0xFFFF00FF = 0 from rfl, show opField 0xFFFF00FF = BitVec.allOnes 8 from rfl]
    rw [show argField w &&& 0 = 0 from BitVec.and_zero]
    simp only [BitVec.and_allOnes, h, false_imp_iff, true_and]

/-! ### The decoder -/

theorem plainCommand_eq_ok {arg : Byte} {i j : Instr} : plainCommand arg i = .ok j ↔ arg = 0 ∧ i = j := by
  unfold plainCommand
  split_ifs with h
  · simp [h]
  · exact ⟨nofun, fun ⟨harg, _⟩ => absurd harg h⟩

/-- A word that the row of `i` selects decodes to the command of that row with the word's operand (30_encoding.md
R103). -/
theorem decode_of_selects {i : Instr} {w : Word} (h : (opcodeRow i).selects w) :
    decode w = .ok (i.withArg (argField w).toNat) := by
  obtain ⟨hrsv, harg, hop⟩ := (opcodeRow_selects_iff i w).1 h
  rw [decode, if_neg (not_not.2 hrsv), hop]
  cases i with
  | setkey | roundkey | sbox | sboxInv | cbcEnc => rfl
  | encrypt | decrypt | ip | fp | lt | ltInv | cbcInit | cbcDec => rw [harg rfl]; rfl

/-- A word that decodes is selected by its command's row and has the command's operand in `ARG` (30_encoding.md
R102). -/
theorem selects_of_decode {i : Instr} {w : Word} (h : decode w = .ok i) :
    (opcodeRow i).selects w ∧ i.withArg (argField w).toNat = i := by
  rw [opcodeRow_selects_iff]
  unfold decode at h
  split_ifs at h with hrsv
  rw [not_not] at hrsv
  split at h
  -- The five rows that take an operand, the `OP` values outside the map, the eight rows that take none.
  case h_1 hop | h_4 hop | h_5 hop | h_6 hop | h_12 hop =>
    cases h
    exact ⟨⟨hrsv, nofun, BitVec.eq_of_toNat_eq hop⟩, rfl⟩
  case h_14 => cases h
  all_goals
    rename_i hop
    obtain ⟨harg, rfl⟩ := plainCommand_eq_ok.1 h
    exact ⟨⟨hrsv, fun _ => harg, BitVec.eq_of_toNat_eq hop⟩, rfl⟩

/-- Settles O4: a word decodes to the command that the row selecting it names with the word's operand
(`decode_of_selects`), and to no other (`selects_of_decode`). -/
theorem wordsDecodeToTheRowThatSelectsThem : Obligations.WordsDecodeToTheRowThatSelectsThem := by
  unfold Obligations.WordsDecodeToTheRowThatSelectsThem
  refine ⟨fun w i h => ?row, fun w i h => ⟨_, decode_of_selects h, opcodeRow_withArg _ i⟩⟩
  case row =>
    obtain ⟨hsel, harg⟩ := selects_of_decode h
    refine ⟨hsel, fun v hv => ?_⟩
    rw [← harg] at hv
    rw [operand?_withArg hv, argField_toNat]

end Sys2Proof

namespace Sys2Proof.Machine

/-! ### Illegal words -/

/-- A word that decodes has `RSV = 0`, an `OP` of the map, and `ARG = 0` for an `OP` that takes no operand
(30_encoding.md R103). -/
theorem fields_of_decode {i : Instr} {w : Word} (h : decode w = .ok i) :
    w.toNat / 65536 = 0 ∧ w.toNat % 256 = i.opcode.toNat ∧ (i.operand? = none → w.toNat / 256 % 256 = 0) := by
  obtain ⟨hrsv, harg, hop⟩ := (opcodeRow_selects_iff i w).1 (selects_of_decode h).1
  rw [← rsvField_toNat, ← opField_toNat, ← argField_toNat]
  exact ⟨congrArg BitVec.toNat hrsv, congrArg BitVec.toNat hop, fun hi => congrArg BitVec.toNat (harg hi)⟩

/-- A listed turn of the engine, out of reset, completes the pending word (70_reset_and_hazards.md R273). -/
theorem step_engine_of_pending {s : State} {w : Word} {ts : List Turn} (hrst : s.rst = false)
    (hw : s.engine.pending = some w) (hts : s.turns = .engine :: ts) :
    step s = completeCommand w { s with turns := ts } := by
  simp [step, nextTurn, hts, takeTurn, engineTurn, hrst, hw]

/-- A word that decodes to no command completes with `ILLEGAL_COMMAND` and changes nothing else (30_encoding.md R104). -/
theorem completeCommand_illegal {w : Word} (h : ∀ i, decode w ≠ .ok i) (s : State) :
    ∃ t, completeCommand w s = .next t ∧ FailsWith 3 s t := by
  refine ⟨_, completeCommand_eq w s, ?_⟩
  unfold engineAfterWord
  cases hd : decode w with
  | ok i => exact absurd hd (h i)
  | error _ => exact failsWith_raise s .illegalCommand

/-- Settles O10: by `fields_of_decode` no word of R104's three kinds decodes. -/
theorem illegalWordsReportIllegalCommand : Obligations.IllegalWordsReportIllegalCommand := by
  unfold Obligations.IllegalWordsReportIllegalCommand
  intro s w ts hrst hw hts hill
  rw [step_engine_of_pending hrst hw hts]
  refine completeCommand_illegal (fun i hi => ?_) _
  obtain ⟨hrsv, hop, harg⟩ := fields_of_decode hi
  rw [hop] at hill
  obtain hne | hout | ⟨hplain, hne⟩ := hill
  · exact hne hrsv
  · exact hout (opcode_mem_map i)
  · exact hne (harg (operand?_eq_none_of_opcode_mem hplain))

end Sys2Proof.Machine
end

section
/-! The layer commands (40_layers.md): what each writes to `BLK` (R130), the S-box commands by their table's entries
(R133, R134) and `LT` by the steps of its word core (R140, R145). -/

namespace Sys2Proof.Machine

/-- A layer command succeeds in every state, with or without a key, and writes its function of `BLK` to `BLK` alone
(40_layers.md R130). -/
theorem exec_layer {i : Instr} {s : State} {f : Block → Block} (h : engineAfter s.tables i = Engine.applyLayer f) :
    ∃ t, exec i s = .next t ∧ Succeeds [.blk] s t ∧ t.engine.blk = f s.engine.blk := by
  refine ⟨_, exec_eq i s, ?_⟩
  rw [h]
  exact ⟨succeeds_done s _ rfl rfl fun d hd => by cases d <;> simp_all [DataReg.same], rfl⟩

/-- Settles O28: each byte of `SUB` as a number (`swapSub_toNat`), its two look-ups in the table's own entries. -/
theorem sboxCommandSubstitutesAndSwapsNibbles : Obligations.SboxCommandSubstitutesAndSwapsNibbles := by
  unfold Obligations.SboxCommandSubstitutesAndSwapsNibbles
  intro s r
  obtain ⟨t, hexec, hsucc, hblk⟩ := exec_layer (i := .sbox r) (f := fun b => sub s.tables b r) rfl
  refine ⟨t, hexec, hsucc, fun n hn => ?_⟩
  rw [hblk, byteAt_sub _ _ _ hn, swapSub_toNat, sboxAt_low, sboxAt_high]

/-- For permutation tables the forward table takes the high nibble of a byte of `SUBINV` to the operand's low nibble
(40_layers.md R134, R132). -/
theorem sboxAt_swapSub_inv_high {T : Tables} (hT : T.Valid) (r : Nat) (x : Byte) :
    sboxAt T r ((swapSub (sboxInvAt T r) x).extractLsb' 4 4) = x.extractLsb' 0 4 := by
  rw [swapSub_high, sboxAt_sboxInvAt hT]

/-- For permutation tables the forward table takes the low nibble of a byte of `SUBINV` to the operand's high nibble
(40_layers.md R134, R132). -/
theorem sboxAt_swapSub_inv_low {T : Tables} (hT : T.Valid) (r : Nat) (x : Byte) :
    sboxAt T r ((swapSub (sboxInvAt T r) x).extractLsb' 0 4) = x.extractLsb' 4 4 := by
  rw [swapSub_low, sboxAt_sboxInvAt hT]

/-- The low nibble of a byte as a number. -/
theorem toNat_low_nibble (x : Byte) : (x.extractLsb' 0 4).toNat = x.toNat % 16 := by
  rw [BitVec.extractLsb'_toNat, Nat.shiftRight_zero]

/-- The high nibble of a byte as a number: a byte has no bit above it. -/
theorem toNat_high_nibble (x : Byte) : (x.extractLsb' 4 4).toNat = x.toNat / 16 := by
  rw [BitVec.extractLsb'_toNat, Nat.shiftRight_eq_div_pow]
  have := x.isLt
  omega

/-- Settles O29: the forward look-up of each result nibble undoes the inverse look-up that gave it
(`sboxAt_sboxInvAt`), with the nibbles swapped. -/
theorem sboxInvCommandLooksUpTheInverseTable : Obligations.SboxInvCommandLooksUpTheInverseTable := by
  unfold Obligations.SboxInvCommandLooksUpTheInverseTable
  intro s r
  obtain ⟨t, hexec, hsucc, hblk⟩ := exec_layer (i := .sboxInv r) (f := fun b => subInv s.tables b r) rfl
  refine ⟨t, hexec, hsucc, fun hT n hn => ?_⟩
  rw [hblk, byteAt_subInv _ _ _ hn]
  constructor
  · rw [← sboxAt_high, sboxAt_swapSub_inv_high hT, toNat_low_nibble]
  · rw [← sboxAt_low, sboxAt_swapSub_inv_low hT, toNat_high_nibble]

/-- Settles O35: the model's core is R140's steps with `rotl` for the library's rotation (`rotl_eq`). -/
theorem ltCommandMixesTheFourWords : Obligations.LtCommandMixesTheFourWords := by
  unfold Obligations.LtCommandMixesTheFourWords
  intro s
  obtain ⟨t, hexec, hsucc, hblk⟩ := exec_layer (i := .lt) (s := s) rfl
  refine ⟨t, hexec, hsucc, ?_⟩
  simp (disch := decide) only [hblk, ltf, quadOf, ltw, blockOf, rotl_eq]

end Sys2Proof.Machine
end

section
/-! The key schedule's commands (41_key_schedule.md): `SETKEY` expands the padded key (R171 to R175), `ROUNDKEY` writes
one round key (R177, R178), and the errors of both. -/

namespace Sys2Proof.Machine

/-- A command whose engine step raises an error fails with that error's code and changes nothing else
(60_exceptions.md R242). -/
theorem exec_fails {i : Instr} {s : State} {c : ErrorCode} (h : engineAfter s.tables i s.engine = s.engine.raise c) :
    ∃ t, exec i s = .next t ∧ FailsWith c.code s t := by
  refine ⟨_, exec_eq i s, ?_⟩
  rw [h]
  exact failsWith_raise s c

/-! ### `SETKEY` -/

/-- A length outside `1..32` is rejected (41_key_schedule.md R175). -/
theorem engineAfter_setkey_illegal (T : Tables) (e : Engine) {len : Nat} (h : len = 0 ∨ 32 < len) :
    engineAfter T (.setkey len) e = e.raise .invalidKeyLength := by
  have hlen : keyLengthLegal len = false := decide_eq_false (by omega)
  simp [engineAfter, Engine.setkey, hlen]

/-- The first eight prekeys hold the bytes of the padded key, most significant first (41_key_schedule.md R171, R172). -/
theorem pkAt_prekeys_byte (k : KeyBuffer) (len : Nat) {n : Nat} (h : n < 32) :
    (pkAt (prekeys k len) (n / 4)).extractLsb' (24 - 8 * (n % 4)) 8 =
      if n < len then byteAt k n else if n = len then 0x80 else 0x00 := by
  rw [pkAt_prekeys_low _ _ (by omega), ← wordByte_eq_extract, wordByte_be32 _ _ (Nat.mod_lt n (by decide)),
    Nat.div_add_mod, byteAt_padKey _ _ h]

/-- Settles O39: the padded key's bytes (`pkAt_prekeys_byte`), then the recurrence (`pkAt_prekeys_high`) with `rotl` for
the library's rotation. -/
theorem setkeyExpandsThePaddedKey : Obligations.SetkeyExpandsThePaddedKey := by
  unfold Obligations.SetkeyExpandsThePaddedKey
  intro s len
  refine ⟨fun h1 h32 => ⟨_, exec_setkey h1 h32, ?frame, rfl, fun n hn => ?low, fun i h8 h140 => ?high⟩,
    fun hlen => exec_fails (engineAfter_setkey_illegal _ _ hlen)⟩
  case frame => exact succeeds_done s _ rfl rfl fun d hd => by cases d <;> simp_all [DataReg.same]
  case low => exact pkAt_prekeys_byte s.engine.keybuf len hn
  case high =>
    rw [← rotl_eq _ (by decide)]
    exact pkAt_prekeys_high s.engine.keybuf len h8 h140

/-! ### `ROUNDKEY` -/

/-- A round above 32 is rejected, with or without a key (41_key_schedule.md R178). -/
theorem engineAfter_roundkey_illegal (T : Tables) (e : Engine) {r : Nat} (h : 32 < r) :
    engineAfter T (.roundkey r) e = e.raise .badArgument := by
  simp [engineAfter, Engine.roundkey, roundLegal, Nat.not_le.2 h]

/-- A legal round needs a key (41_key_schedule.md R178). -/
theorem engineAfter_roundkey_no_key (T : Tables) {e : Engine} {r : Nat} (h : r ≤ 32) (hk : e.keyValid = false) :
    engineAfter T (.roundkey r) e = e.raise .uninitializedKey := by
  simp [engineAfter, Engine.roundkey, roundLegal, h, withKey_of_invalid _ hk]

/-- Byte `c` of the interleave holds bits `2c` and `2c + 1` of the four words (41_key_schedule.md R177). -/
theorem getLsbD_interleave (k : Nat → Word) {c p : Nat} (hc : c < 16) (hp : p < 8) :
    (byteAt (interleave k) c).getLsbD p = (k (p % 4)).getLsbD (2 * c + p / 4) := by
  rw [interleave, byteAt_ofFn _ hc, getLsbD_byteOfBits _ hp]

/-- Bit `2c` of the word `w_m` is bit `m` of byte `c` (41_key_schedule.md R177). -/
theorem getLsbD_deinterleave_even (b : Block) (m : Nat) {c : Nat} (hc : c < 16) :
    (deinterleave b m).getLsbD (2 * c) = (byteAt b c).getLsbD m := by
  rw [deinterleave, getLsbD_wordOfBits _ (by omega)]
  congr 2 <;> omega

/-- Bit `2c + 1` of the word `w_m` is bit `4 + m` of byte `c` (41_key_schedule.md R177). -/
theorem getLsbD_deinterleave_odd (b : Block) (m : Nat) {c : Nat} (hc : c < 16) :
    (deinterleave b m).getLsbD (2 * c + 1) = (byteAt b c).getLsbD (4 + m) := by
  rw [deinterleave, getLsbD_wordOfBits _ (by omega)]
  congr 2 <;> omega

/-- The de-interleaved words as a block, the last word first (41_key_schedule.md R177). -/
def deinterleavedBlock (b : Block) : Block :=
  unbe32 (deinterleave b 3) (deinterleave b 2) (deinterleave b 1) (deinterleave b 0)

/-- Word `3 - m` of the block of de-interleaved words is `w_m` (41_key_schedule.md R177). -/
theorem be32_deinterleavedBlock (b : Block) {m : Nat} (hm : m < 4) :
    be32 (deinterleavedBlock b) (3 - m) = deinterleave b m := by
  have h : be32 (deinterleavedBlock b) (3 - m) = deinterleave b (3 - (3 - m)) :=
    be32_unbe32 (fun k => deinterleave b (3 - k)) (by omega)
  rw [h, Nat.sub_sub_self (by omega)]

/-- The round key in its four steps: interleave, table `(3 - r) mod 8`, de-interleave, `IPF` (41_key_schedule.md R177,
R179). -/
theorem rkf_eq (T : Tables) (pk : Prekeys) {r : Nat} (h : r ≤ 32) :
    rkf T pk r = ipf T (deinterleavedBlock
      (sub T (interleave fun m => pkAt pk (4 * r + 8 + m)) ((3 - (r : Int)) % 8).toNat)) := by
  rw [← roundTable_eq h]
  rfl

/-- Settles O42: the round key's steps are `rkf_eq`, with its two blocks read bit by bit. -/
theorem roundkeyCommandDerivesTheRoundKey : Obligations.RoundkeyCommandDerivesTheRoundKey := by
  unfold Obligations.RoundkeyCommandDerivesTheRoundKey
  intro s r
  refine ⟨fun hr hk => ⟨_, exec_roundkey hr hk, ?frame, interleave fun m => pkAt s.engine.pk (4 * r + 8 + m),
      deinterleavedBlock _, fun c hc p hp => ?interleaved, fun m hm c hc => ?deinterleaved, rkf_eq _ _ hr⟩,
    fun hr => exec_fails (engineAfter_roundkey_illegal _ _ hr),
    fun hr hk => exec_fails (engineAfter_roundkey_no_key _ hr hk)⟩
  case frame => exact succeeds_done s _ rfl rfl fun d hd => by cases d <;> simp_all [DataReg.same]
  case interleaved => exact getLsbD_interleave _ hc hp
  case deinterleaved =>
    rw [be32_deinterleavedBlock _ hm]
    exact ⟨getLsbD_deinterleave_even _ m hc, getLsbD_deinterleave_odd _ m hc⟩

end Sys2Proof.Machine
end

section
/-! The block cipher's commands (42_cipher.md): `ENCRYPT` runs the 32 rounds (R200), `DECRYPT` their mirror (R202), and
both need a key. -/

namespace Sys2Proof.Machine

/-- A command that only writes `BLK` and ends with `done` succeeds (00_scope.md R16). -/
theorem succeeds_writeBlk (s : State) (b : Block) :
    Succeeds [.blk] s { s with engine := { s.engine with blk := b }.done } :=
  succeeds_done s _ rfl rfl fun d hd => by cases d <;> simp_all [DataReg.same]

/-- A command that starts with the key check fails without a key and changes nothing else (10_state.md R34). -/
theorem exec_without_key {i : Instr} {s : State} {f : Engine → Engine} (h : engineAfter s.tables i = Engine.withKey f)
    (hk : s.engine.keyValid = false) : ∃ t, exec i s = .next t ∧ FailsWith 2 s t :=
  exec_fails (c := .uninitializedKey) (by rw [h, withKey_of_invalid f hk])

/-- Settles O43: the round states are those of `encRounds`, between the two group reversals that `enc` makes. -/
theorem encryptCommandRunsTheThirtyTwoRounds : Obligations.EncryptCommandRunsTheThirtyTwoRounds := by
  unfold Obligations.EncryptCommandRunsTheThirtyTwoRounds
  intro s
  refine ⟨fun hk => ⟨_, exec_encrypt hk, succeeds_writeBlk s _,
      encRounds s.tables s.engine.pk (groupReverse (ipf s.tables s.engine.blk)),
      fun n hn => ?start, fun r hr => ?inner, ?last, fun n hn => ?out⟩,
    exec_without_key rfl⟩
  case start => exact byteAt_groupReverse _ hn
  case inner => rw [encRounds_succ, encRound_inner _ _ _ hr]
  case last => rw [encRounds_succ, encRound_last]
  case out => exact byteAt_groupReverse _ hn

/-- The states of `DEC` by round: from the state `s` before round `n - 1`, each round's state is that round of the state
above it, down to the state that `decRounds` answers (42_cipher.md R202). -/
theorem exists_decRounds_states (T : Tables) (pk : Prekeys) (n : Nat) (s : Block) :
    ∃ x : Nat → Block, x n = s ∧ (∀ r < n, x r = decRound T pk r (x (r + 1))) ∧ x 0 = decRounds T pk s n := by
  induction n generalizing s with
  | zero => exact ⟨fun _ => s, rfl, nofun, rfl⟩
  | succ n ih =>
    obtain ⟨x, htop, hround, hend⟩ := ih (decRound T pk n s)
    refine ⟨Function.update x (n + 1) s, Function.update_self .., fun r hr => ?round, ?last⟩
    case round =>
      rw [Function.update_of_ne (by omega)]
      obtain hlt | rfl := Nat.lt_succ_iff_lt_or_eq.1 hr
      · rw [Function.update_of_ne (by omega), hround r hlt]
      · rw [Function.update_self, htop]
    case last => rw [Function.update_of_ne (by omega), hend, decRounds_succ]

/-- Settles O44: the round states are those of `exists_decRounds_states`, from the whitened block down. -/
theorem decryptCommandRunsTheRoundsInReverse : Obligations.DecryptCommandRunsTheRoundsInReverse := by
  unfold Obligations.DecryptCommandRunsTheRoundsInReverse
  intro s
  obtain ⟨x, htop, hround, hend⟩ := exists_decRounds_states s.tables s.engine.pk 32
    (xorBlock (ipf s.tables (groupReverse s.engine.blk)) (rkf s.tables s.engine.pk 32))
  refine ⟨fun hk => ⟨_, exec_decrypt hk, succeeds_writeBlk s _, x, groupReverse s.engine.blk, groupReverse (x 0),
      fun n hn => byteAt_groupReverse _ hn, fun n hn => byteAt_groupReverse _ hn, htop, ?round31, fun r hr => ?inner,
      ?out⟩,
    exec_without_key rfl⟩
  case round31 => rw [hround 31 (by decide), decRound_last]
  case inner => rw [hround r (by omega), decRound_inner _ _ _ hr]
  case out => rw [hend]; rfl

end Sys2Proof.Machine
end

section
/-! The CBC adapter's commands (43_cbc.md): `CBC_INIT` encrypts the nonce block (R221, R222), `CBC_ENC` and `CBC_DEC`
chain one block each through `IV` (R223, R224), and the errors of all three. -/

namespace Sys2Proof.Machine

/-! ### The nonce block -/

/-- The nonce as a number: its halves do not overlap (10_state.md R43). -/
theorem nonceValue_toNat (hi lo : Word) : (nonceValue hi lo).toNat = hi.toNat * 2 ^ 32 + lo.toNat := by
  have hfits : hi.toNat * 2 ^ 32 < 2 ^ 64 := by have := hi.isLt; omega
  rw [nonceValue, BitVec.toNat_or, BitVec.toNat_shiftLeft, BitVec.toNat_setWidth_of_le (by decide),
    BitVec.toNat_setWidth_of_le (by decide), Nat.shiftLeft_eq, Nat.mod_eq_of_lt hfits, ← Nat.shiftLeft_eq,
    ← Nat.shiftLeft_add_eq_or_of_lt lo.isLt]

/-- The bytes of the nonce block: the nonce's base-256 digits, lowest first, then zeros (43_cbc.md R221). -/
theorem byteAt_nonceBlock_toNat (v : BitVec 64) {n : Nat} (h : n < 16) :
    (byteAt (nonceBlock v) n).toNat = if n < 8 then v.toNat / 2 ^ (8 * n) % 256 else 0 := by
  rw [nonceBlock, byteAt_ofFn _ h]
  split
  · rw [BitVec.toNat_setWidth, BitVec.toNat_ushiftRight, Nat.shiftRight_eq_div_pow]
  · rfl

/-- Settles O46: the nonce block's bytes are the digits of the nonce (`byteAt_nonceBlock_toNat`, `nonceValue_toNat`). -/
theorem cbcInitEncryptsTheNonceBlock : Obligations.CbcInitEncryptsTheNonceBlock := by
  unfold Obligations.CbcInitEncryptsTheNonceBlock
  intro s
  refine ⟨fun hk => ⟨_, exec_cbcInit hk, ?frame, nonceBlock (nonceValue s.engine.nonceHi s.engine.nonceLo), rfl,
      fun n hn => ?digit⟩,
    exec_without_key rfl⟩
  case frame => exact succeeds_done s _ rfl rfl fun d hd => by cases d <;> simp_all [DataReg.same]
  case digit => rw [byteAt_nonceBlock_toNat _ hn, nonceValue_toNat]

/-! ### One chained block -/

/-- A command that only writes `BLK` and `IV` and ends with `done` succeeds (00_scope.md R16). -/
theorem succeeds_writeBlkIv (s : State) (b v : Block) :
    Succeeds [.blk, .iv] s { s with engine := { s.engine with blk := b, iv := v }.done } :=
  succeeds_done s _ rfl rfl fun d hd => by cases d <;> simp_all [DataReg.same]

/-- A byte count outside `1..16` is rejected, with or without a key (43_cbc.md R223). -/
theorem engineAfter_cbcEnc_illegal (T : Tables) (e : Engine) {n : Nat} (h : n = 0 ∨ 16 < n) :
    engineAfter T (.cbcEnc n) e = e.raise .badArgument := by
  have hn : chunkLengthLegal n = false := decide_eq_false (by omega)
  simp [engineAfter, Engine.cbcEnc, hn]

/-- A legal byte count needs a key (43_cbc.md R223). -/
theorem engineAfter_cbcEnc_no_key (T : Tables) {e : Engine} {n : Nat} (h : 1 ≤ n) (h' : n ≤ 16)
    (hk : e.keyValid = false) : engineAfter T (.cbcEnc n) e = e.raise .uninitializedKey := by
  simp [engineAfter, Engine.cbcEnc, chunkLengthLegal, h, h', withKey_of_invalid _ hk]

/-- Settles O47: the block encrypted is the padded chunk (`byteAt_zeroPad`) XOR `IV`; the range check comes before the
key check. -/
theorem cbcEncChainsAndEmitsTheCipherBlock : Obligations.CbcEncChainsAndEmitsTheCipherBlock := by
  unfold Obligations.CbcEncChainsAndEmitsTheCipherBlock
  intro s n
  refine ⟨fun h1 h16 hk => ⟨_, exec_cbcEnc h1 h16 hk, succeeds_writeBlkIv s _ _, rfl,
      xorBlock (zeroPad s.engine.blk n) s.engine.iv, rfl, fun m hm => ?chunk⟩,
    fun hn => exec_fails (engineAfter_cbcEnc_illegal _ _ hn),
    fun h1 h16 hk => exec_fails (engineAfter_cbcEnc_no_key _ h1 h16 hk)⟩
  case chunk => rw [byteAt_xorBlock _ _ hm, byteAt_zeroPad _ _ hm]

/-- Settles O48: `BLK` takes the decrypted block XOR the old `IV` (`byteAt_xorBlock`), `IV` the block consumed. -/
theorem cbcDecUnchainsAndKeepsTheCipherBlock : Obligations.CbcDecUnchainsAndKeepsTheCipherBlock := by
  unfold Obligations.CbcDecUnchainsAndKeepsTheCipherBlock
  intro s
  exact ⟨fun hk => ⟨_, exec_cbcDec hk, succeeds_writeBlkIv s _ _, rfl, fun m hm => byteAt_xorBlock _ _ hm⟩,
    exec_without_key rfl⟩

end Sys2Proof.Machine
end

section
/-! How a command word ends (60_exceptions.md): with `done` or with exactly one error (R240), an error changing nothing
but `STATUS` (R242), and the order in which the errors are checked (R241, R244). -/

namespace Sys2Proof.Machine

/-! ### The two ends of a command word -/

theorem engineAfterWord_of_ok (T : Tables) {w : Word} {i : Instr} (h : decode w = .ok i) (e : Engine) :
    engineAfterWord T w e = engineAfter T i e := by
  simp only [engineAfterWord, h]

theorem engineAfterWord_of_error (T : Tables) {w : Word} {r : Illegal} (h : decode w = .error r) (e : Engine) :
    engineAfterWord T w e = e.raise .illegalCommand := by
  simp only [engineAfterWord, h]

/-- All a command word can do: succeed as the command it decodes to, or raise one error in a state otherwise unchanged
(60_exceptions.md R240, R242). -/
theorem completeCommand_succeeds_or_raises {w : Word} {s t : State} (h : completeCommand w s = .next t) :
    (∃ i, decode w = .ok i ∧ Succeeds (registersWritten i) s t) ∨
      ∃ c : ErrorCode, t = { s with engine := s.engine.raise c } := by
  rw [completeCommand_eq] at h
  cases h
  cases hd : decode w with
  | ok i =>
    rw [engineAfterWord_of_ok _ hd]
    obtain ⟨e', hdone, hovr, herrs, hsame⟩ | ⟨c, hraise⟩ := engineAfter_ends s.tables i s.engine
    · rw [hdone]
      exact .inl ⟨i, rfl, succeeds_done s e' hovr herrs hsame⟩
    · exact .inr ⟨c, by rw [hraise]⟩
  | error _ => exact .inr ⟨.illegalCommand, by rw [engineAfterWord_of_error _ hd]⟩

/-- Settles O52: the two ends of a command word (`completeCommand_succeeds_or_raises`), with the four error codes. -/
theorem everyCommandWordCompletesWithOneResult : Obligations.EveryCommandWordCompletesWithOneResult := by
  unfold Obligations.EveryCommandWordCompletesWithOneResult
  intro w s
  refine ⟨_, completeCommand_eq w s, ?_⟩
  obtain hsucc | ⟨c, hraise⟩ := completeCommand_succeeds_or_raises (completeCommand_eq w s)
  · exact .inl hsucc
  · rw [hraise]
    have hfail := failsWith_raise s c
    cases c with
    | invalidKeyLength => exact .inr (.inl hfail)
    | uninitializedKey => exact .inr (.inr (.inl hfail))
    | illegalCommand => exact .inr (.inr (.inr (.inl hfail)))
    | badArgument => exact .inr (.inr (.inr (.inr hfail)))

/-- Settles O53: a word that succeeds leaves `ERR` 0, so this one raised an error, and `raise` writes `STATUS` alone. -/
theorem failedCommandsChangeOnlyStatus : Obligations.FailedCommandsChangeOnlyStatus := by
  unfold Obligations.FailedCommandsChangeOnlyStatus
  intro w s t h herr
  obtain ⟨i, -, -, herr0, -⟩ | ⟨c, rfl⟩ := completeCommand_succeeds_or_raises h
  · exact absurd herr0 herr
  · rfl

/-! ### The code reported -/

/-- After the key check, an effect that raises nothing leaves `ERR` 0 with a key and 2 without (10_state.md R34). -/
theorem withKey_err {e : Engine} {f : Engine → Engine} (hf : (f e).err = 0) :
    (e.withKey f).err = if e.keyValid = false then 2 else 0 := by
  split_ifs with hk
  · rw [withKey_of_invalid f hk]; rfl
  · rw [withKey_of_valid f (Bool.of_not_eq_false hk), hf]

/-- `SETKEY` has the range check alone (60_exceptions.md R241, 41_key_schedule.md R175). -/
theorem engineAfter_setkey_err (T : Tables) (len : Nat) (e : Engine) :
    (engineAfter T (.setkey len) e).err = if len = 0 ∨ 32 < len then 1 else 0 := by
  split_ifs with hlen
  · rw [engineAfter_setkey_illegal T e hlen]; rfl
  · have hlegal : keyLengthLegal len = true := decide_eq_true (by omega)
    rw [engineAfter, Engine.setkey, if_pos hlegal]; rfl

/-- `ROUNDKEY` checks the range first, then the key (60_exceptions.md R244, 41_key_schedule.md R178). -/
theorem engineAfter_roundkey_err (T : Tables) (r : Nat) (e : Engine) :
    (engineAfter T (.roundkey r) e).err = if 32 < r then 4 else if e.keyValid = false then 2 else 0 := by
  by_cases hr : 32 < r
  · rw [if_pos hr, engineAfter_roundkey_illegal T e hr]; rfl
  · have hlegal : roundLegal r = true := decide_eq_true (by omega)
    rw [if_neg hr, engineAfter, Engine.roundkey, if_pos hlegal]
    exact withKey_err rfl

/-- `CBC_ENC` checks the range first, then the key (60_exceptions.md R244, 43_cbc.md R223). -/
theorem engineAfter_cbcEnc_err (T : Tables) (n : Nat) (e : Engine) :
    (engineAfter T (.cbcEnc n) e).err = if n = 0 ∨ 16 < n then 4 else if e.keyValid = false then 2 else 0 := by
  by_cases hn : n = 0 ∨ 16 < n
  · rw [if_pos hn, engineAfter_cbcEnc_illegal T e hn]; rfl
  · have hlegal : chunkLengthLegal n = true := decide_eq_true (by omega)
    rw [if_neg hn, engineAfter, Engine.cbcEnc, if_pos hlegal]
    exact withKey_err rfl

/-- Settles O51: the decoder comes before every check, and each command's checks are those of the lemmas above. -/
theorem reportedCodeIsTheFirstThatApplies : Obligations.ReportedCodeIsTheFirstThatApplies := by
  unfold Obligations.ReportedCodeIsTheFirstThatApplies
  intro w s
  refine ⟨_, completeCommand_eq w s, fun r hd => ?illegal, fun i hd => ?command⟩
  case illegal => rw [engineAfterWord_of_error _ hd]; rfl
  case command =>
    rw [engineAfterWord_of_ok _ hd]
    cases i with
    | setkey len => exact engineAfter_setkey_err s.tables len s.engine
    | roundkey r => exact engineAfter_roundkey_err s.tables r s.engine
    | cbcEnc n => exact engineAfter_cbcEnc_err s.tables n s.engine
    | encrypt | decrypt | cbcInit | cbcDec => exact withKey_err rfl
    | sbox | sboxInv | ip | fp | lt | ltInv => rfl

end Sys2Proof.Machine
end

section
/-! Encoder and decoder (30_encoding.md R100 to R103): the operand field of a command word, the two round trips, and the
opcode map spelled out over all words. -/

namespace Sys2Proof

/-! ### The operand of a command word -/

/-- A command word as a number: the fields do not overlap (30_encoding.md R100). -/
theorem commandWord_toNat (op : Byte) (arg : Nat) : (commandWord op arg).toNat = arg % 256 * 2 ^ 8 + op.toNat := by
  rw [commandWord, BitVec.toNat_or, BitVec.toNat_shiftLeft, BitVec.toNat_ofNat, BitVec.toNat_setWidth_of_le (by decide),
    Nat.mod_eq_of_lt (a := arg % 256) (by omega), Nat.shiftLeft_eq, Nat.mod_eq_of_lt (by omega), ← Nat.shiftLeft_eq,
    ← Nat.shiftLeft_add_eq_or_of_lt op.isLt]

/-- A command word holds its operand in `ARG` (30_encoding.md R100). -/
theorem argField_commandWord (op : Byte) (arg : Nat) : (argField (commandWord op arg)).toNat = arg % 256 := by
  have := op.isLt
  rw [argField_toNat, commandWord_toNat]
  omega

/-- The word of a command that takes an operand holds it in `ARG` (30_encoding.md R101). -/
theorem argField_encode {i : Instr} {v : Nat} (h : i.operand? = some v) :
    (argField (encode i)).toNat = v % 256 := by
  cases i with
  | setkey | roundkey | sbox | sboxInv | cbcEnc =>
    obtain rfl := Option.some.inj h
    exact argField_commandWord _ _
  | encrypt | decrypt | ip | fp | lt | ltInv | cbcInit | cbcDec => cases h

/-- A command is well-formed when its operand, if it takes one, fits `ARG` (30_encoding.md R100). -/
theorem Instr.wellFormed_iff (i : Instr) : i.WellFormed ↔ ∀ v, i.operand? = some v → v < 256 := by
  unfold Instr.WellFormed Instr.wellFormed
  cases i.operand? <;> simp

/-- A command keeps its form when its operand is replaced by itself. -/
theorem withArg_eq_self {i : Instr} {arg : Nat} (h : ∀ v, i.operand? = some v → arg = v) : i.withArg arg = i := by
  cases i with
  | setkey | roundkey | sbox | sboxInv | cbcEnc => rw [h _ rfl]; rfl
  | encrypt | decrypt | ip | fp | lt | ltInv | cbcInit | cbcDec => rfl

/-! ### The two round trips -/

/-- The word of a command selects the command's row (30_encoding.md R102). -/
theorem opcodeRow_selects_encode {i : Instr} (h : i.WellFormed) : (opcodeRow i).selects (encode i) := by
  cases i with
  | setkey | roundkey | sbox | sboxInv | cbcEnc => exact Laws.commandWord_masked _ _
  | encrypt => exact Laws.OpcodeMap.encrypt h
  | decrypt => exact Laws.OpcodeMap.decrypt h
  | ip => exact Laws.OpcodeMap.ip h
  | fp => exact Laws.OpcodeMap.fp h
  | lt => exact Laws.OpcodeMap.lt h
  | ltInv => exact Laws.OpcodeMap.ltInv h
  | cbcInit => exact Laws.OpcodeMap.cbcInit h
  | cbcDec => exact Laws.OpcodeMap.cbcDec h

/-- Settles O1: the word selects the command's row (`opcodeRow_selects_encode`), so it decodes to that row's command
with the operand that `ARG` holds (`decode_of_selects`), which is the command's own (`argField_encode`). -/
theorem decodeOfEncodeIsTheCommand : Obligations.DecodeOfEncodeIsTheCommand := by
  unfold Obligations.DecodeOfEncodeIsTheCommand
  intro i hwf
  rw [decode_of_selects (opcodeRow_selects_encode hwf)]
  refine congrArg _ (withArg_eq_self fun v hv => ?_)
  rw [argField_encode hv, Nat.mod_eq_of_lt ((Instr.wellFormed_iff i).1 hwf v hv)]

/-- Settles O2: the operand of the command is the word's `ARG` (`selects_of_decode`), so the word and the encoding
agree in all three fields. -/
theorem encodeOfDecodeIsTheWord : Obligations.EncodeOfDecodeIsTheWord := by
  unfold Obligations.EncodeOfDecodeIsTheWord
  intro w i h
  obtain ⟨hsel, hself⟩ := selects_of_decode h
  have hoperand : ∀ v, i.operand? = some v → v = (argField w).toNat := fun v hv => by
    rw [← hself] at hv
    exact operand?_withArg hv
  have hwf : i.WellFormed := (Instr.wellFormed_iff i).2 fun v hv => hoperand v hv ▸ (argField w).isLt
  obtain ⟨hrsv, harg, hop⟩ := (opcodeRow_selects_iff i w).1 hsel
  obtain ⟨hrsv', harg', hop'⟩ := (opcodeRow_selects_iff i _).1 (opcodeRow_selects_encode hwf)
  refine ⟨hwf, (eq_iff_fields _ _).2 ⟨hrsv'.trans hrsv.symm, ?_, hop'.trans hop.symm⟩⟩
  cases hi : i.operand? with
  | none => exact (harg' hi).trans (harg hi).symm
  | some v =>
    apply BitVec.eq_of_toNat_eq
    rw [argField_encode hi, ← hoperand v hi, Nat.mod_eq_of_lt ((Instr.wellFormed_iff i).1 hwf v hi)]

/-! ### The map over all words -/

/-- A word with `RSV = 0` and the `OP` of a command decodes to that command with the word's `ARG`, which must be 0 if
the command takes no operand (30_encoding.md R103). -/
theorem decode_of_fields {w : Word} (i : Instr) (hrsv : w.toNat / 65536 = 0) (hop : w.toNat % 256 = i.opcode.toNat)
    (harg : i.operand? = none → w.toNat / 256 % 256 = 0) : decode w = .ok (i.withArg (w.toNat / 256 % 256)) := by
  rw [← argField_toNat]
  rw [← rsvField_toNat] at hrsv
  rw [← opField_toNat] at hop
  rw [← argField_toNat] at harg
  exact decode_of_selects ((opcodeRow_selects_iff i w).2 ⟨BitVec.eq_of_toNat_eq hrsv,
    fun h => BitVec.eq_of_toNat_eq (harg h), BitVec.eq_of_toNat_eq hop⟩)

/-- A word that decodes to no command is illegal, for one of the reasons of 30_encoding.md R104. -/
theorem decode_error_of_forall_ne {w : Word} (h : ∀ i, decode w ≠ .ok i) : ∃ e, decode w = .error e := by
  cases hd : decode w with
  | ok i => exact absurd hd (h i)
  | error e => exact ⟨e, rfl⟩

/-- No two rows select the same word: it decodes to a command of both (30_encoding.md R103). -/
theorem opcodeRow_unique {i j : Instr} {w : Word} (hi : (opcodeRow i).selects w) (hj : (opcodeRow j).selects w) :
    opcodeRow i = opcodeRow j := by
  have h : i.withArg (argField w).toNat = j.withArg (argField w).toNat :=
    Except.ok.inj ((decode_of_selects hi).symm.trans (decode_of_selects hj))
  rw [← opcodeRow_withArg (argField w).toNat i, h, opcodeRow_withArg]

/-- Settles O3: the legal words are `decode_of_fields`, the illegal ones contradict `fields_of_decode`, and a word
selects one row only (`opcodeRow_unique`). -/
theorem decodeIsTotalAndFollowsTheMap : Obligations.DecodeIsTotalAndFollowsTheMap := by
  unfold Obligations.DecodeIsTotalAndFollowsTheMap
  refine ⟨fun w => ⟨fun hne => decode_error_of_forall_ne fun i hi => hne (Machine.fields_of_decode hi).1,
    fun hrsv => ⟨?setkey, ?roundkey, ?sbox, ?sboxInv, ?cbcEnc, ?encrypt, ?decrypt, ?ip, ?fp, ?lt, ?ltInv, ?cbcInit,
      ?cbcDec, ?argument, ?unknown⟩⟩, fun w i j => opcodeRow_unique⟩
  case setkey => exact fun hop => decode_of_fields (.setkey 0) hrsv hop nofun
  case roundkey => exact fun hop => decode_of_fields (.roundkey 0) hrsv hop nofun
  case sbox => exact fun hop => decode_of_fields (.sbox 0) hrsv hop nofun
  case sboxInv => exact fun hop => decode_of_fields (.sboxInv 0) hrsv hop nofun
  case cbcEnc => exact fun hop => decode_of_fields (.cbcEnc 0) hrsv hop nofun
  case encrypt => exact fun ⟨hop, harg⟩ => decode_of_fields .encrypt hrsv hop fun _ => harg
  case decrypt => exact fun ⟨hop, harg⟩ => decode_of_fields .decrypt hrsv hop fun _ => harg
  case ip => exact fun ⟨hop, harg⟩ => decode_of_fields .ip hrsv hop fun _ => harg
  case fp => exact fun ⟨hop, harg⟩ => decode_of_fields .fp hrsv hop fun _ => harg
  case lt => exact fun ⟨hop, harg⟩ => decode_of_fields .lt hrsv hop fun _ => harg
  case ltInv => exact fun ⟨hop, harg⟩ => decode_of_fields .ltInv hrsv hop fun _ => harg
  case cbcInit => exact fun ⟨hop, harg⟩ => decode_of_fields .cbcInit hrsv hop fun _ => harg
  case cbcDec => exact fun ⟨hop, harg⟩ => decode_of_fields .cbcDec hrsv hop fun _ => harg
  case argument =>
    refine fun ⟨hop, hne⟩ => decode_error_of_forall_ne fun i hi => ?_
    obtain ⟨-, hop', harg⟩ := Machine.fields_of_decode hi
    rw [hop'] at hop
    exact hne (harg (operand?_eq_none_of_opcode_mem hop))
  case unknown =>
    refine fun hop => decode_error_of_forall_ne fun i hi => hop ?_
    obtain ⟨-, hop', -⟩ := Machine.fields_of_decode hi
    rw [hop']
    have hmem := opcode_mem_map i
    simp only [List.mem_cons, List.not_mem_nil, or_false] at hmem ⊢
    omega

/-- Settles O5: each word's fields, read off its bits, are those of the command. -/
theorem writtenOutWordsDecodeToTheirCommands : Obligations.WrittenOutWordsDecodeToTheirCommands := by
  unfold Obligations.WrittenOutWordsDecodeToTheirCommands
  exact ⟨rfl, rfl, rfl, rfl, rfl, rfl, rfl⟩

end Sys2Proof
end

section
/-! Whole-machine rules (95_test_vectors.md section 4): what a command, a command word and a step can do to the prekeys,
`KEY_VALID`, `RK` and `ERR` (10_state.md R34, R37, R44, R45), and the invariant that every step keeps. -/

namespace Sys2Proof.Machine

/-! ### What a command can do to a register -/

/-- A command leaves every register outside its row as it was, however it ends (10_state.md R50). -/
theorem EndsCommand.same {ds : List DataReg} {e f : Engine} (h : EndsCommand ds e f) {d : DataReg} (hd : d ∉ ds) :
    d.same e f := by
  obtain ⟨e', rfl, -, -, hsame⟩ | ⟨c, rfl⟩ := h
  · have := hsame d hd
    cases d <;> exact this
  · cases d <;> simp [DataReg.same]

/-- No error kind has the number 0, and none is above 4 (60_exceptions.md R241). -/
theorem ErrorCode.code_range (c : ErrorCode) : c.code ≠ 0 ∧ c.code.toNat ≤ 4 := by
  cases c <;> decide

/-- A command leaves `ERR` in `0..4` (10_state.md R37). -/
theorem EndsCommand.err_le {ds : List DataReg} {e f : Engine} (h : EndsCommand ds e f) : f.err.toNat ≤ 4 := by
  obtain ⟨e', rfl, -⟩ | ⟨c, rfl⟩ := h
  · exact Nat.zero_le 4
  · exact c.code_range.2

/-- The prekeys and `KEY_VALID` are written by a `SETKEY` of legal length only (10_state.md R34, R45). -/
theorem engineAfter_pk_keyValid (T : Tables) (i : Instr) (e : Engine) :
    (∃ len, i = .setkey len ∧ 1 ≤ len ∧ len ≤ 32 ∧
      engineAfter T i e = { e with pk := prekeys e.keybuf len, keyValid := true }.done) ∨
    ((engineAfter T i e).pk = e.pk ∧ (engineAfter T i e).keyValid = e.keyValid) := by
  have hframe := fun d => (engineAfter_ends T i e).same (d := d)
  cases i with
  | setkey len =>
    by_cases hlen : len = 0 ∨ 32 < len
    · rw [engineAfter_setkey_illegal T e hlen]
      exact .inr ⟨rfl, rfl⟩
    · have hlegal : keyLengthLegal len = true := decide_eq_true (by omega)
      exact .inl ⟨len, rfl, by omega, by omega, by rw [engineAfter, Engine.setkey, if_pos hlegal]⟩
  | encrypt | decrypt | roundkey | sbox | sboxInv | ip | fp | lt | ltInv | cbcInit | cbcEnc | cbcDec =>
    exact .inr ⟨hframe .pk (by simp [registersWritten]), hframe .keyValid (by simp [registersWritten])⟩

/-- `RK` is written by a `ROUNDKEY` of legal round with a key only (10_state.md R44). -/
theorem engineAfter_rk (T : Tables) (i : Instr) (e : Engine) :
    (∃ r, i = .roundkey r ∧ r ≤ 32 ∧ e.keyValid = true ∧ (engineAfter T i e).err = 0) ∨
      (engineAfter T i e).rk = e.rk := by
  have hframe := (engineAfter_ends T i e).same (d := .rk)
  cases i with
  | roundkey r =>
    obtain hr | hr := Nat.lt_or_ge 32 r
    · rw [engineAfter_roundkey_illegal T e hr]
      exact .inr rfl
    · cases hk : e.keyValid with
      | false =>
        rw [engineAfter_roundkey_no_key T hr hk]
        exact .inr rfl
      | true =>
        rw [engineAfter_roundkey_err, if_neg (Nat.not_lt.2 hr), hk]
        exact .inl ⟨r, rfl, hr, rfl, rfl⟩
  | setkey | encrypt | decrypt | sbox | sboxInv | ip | fp | lt | ltInv | cbcInit | cbcEnc | cbcDec =>
    exact .inr (hframe (by simp [registersWritten]))

/-! ### What a command word can do to a register -/

/-- The prekeys and `KEY_VALID` after a command word (10_state.md R34, R45). -/
theorem engineAfterWord_pk_keyValid (T : Tables) (w : Word) (e : Engine) :
    (∃ len, decode w = .ok (.setkey len) ∧ 1 ≤ len ∧ len ≤ 32 ∧
      engineAfterWord T w e = { e with pk := prekeys e.keybuf len, keyValid := true }.done) ∨
    ((engineAfterWord T w e).pk = e.pk ∧ (engineAfterWord T w e).keyValid = e.keyValid) := by
  cases hd : decode w with
  | ok i =>
    rw [engineAfterWord_of_ok T hd]
    exact (engineAfter_pk_keyValid T i e).imp_left fun ⟨len, hi, h⟩ => ⟨len, by rw [hi], h⟩
  | error _ =>
    rw [engineAfterWord_of_error T hd]
    exact .inr ⟨rfl, rfl⟩

/-- `RK` after a command word (10_state.md R44). -/
theorem engineAfterWord_rk (T : Tables) (w : Word) (e : Engine) :
    (∃ r, decode w = .ok (.roundkey r) ∧ r ≤ 32 ∧ e.keyValid = true ∧ (engineAfterWord T w e).err = 0) ∨
      (engineAfterWord T w e).rk = e.rk := by
  cases hd : decode w with
  | ok i =>
    rw [engineAfterWord_of_ok T hd]
    exact (engineAfter_rk T i e).imp_left fun ⟨r, hi, h⟩ => ⟨r, by rw [hi], h⟩
  | error _ =>
    rw [engineAfterWord_of_error T hd]
    exact .inr rfl

/-- A command word leaves `ERR` in `0..4` (10_state.md R37). -/
theorem engineAfterWord_err_le (T : Tables) (w : Word) (e : Engine) : (engineAfterWord T w e).err.toNat ≤ 4 := by
  cases hd : decode w with
  | ok i =>
    rw [engineAfterWord_of_ok T hd]
    exact (engineAfter_ends T i e).err_le
  | error _ =>
    rw [engineAfterWord_of_error T hd]
    exact ErrorCode.illegalCommand.code_range.2

/-! ### The invariant -/

/-- The engine's invariant speaks of `ERR`, `KEY_VALID` and the prekeys alone. -/
theorem Engine.Inv.congr {e e' : Engine} (h : e.Inv) (herr : e'.err.toNat ≤ 4) (hpk : e'.pk = e.pk)
    (hkv : e'.keyValid = e.keyValid) : e'.Inv := by
  refine ⟨herr, ?_⟩
  rw [hpk, hkv]
  exact h.2

/-- The engine at reset meets the invariant, whatever the free draws (10_state.md R61). -/
theorem Engine.atReset_inv (d : Nat) : (Engine.atReset d).Inv :=
  ⟨by simp, fun h => by simp at h⟩

/-- Every command word keeps the engine's invariant: `SETKEY` writes the schedule of the key in `KEYBUF`, the others
write no prekey (10_state.md R34). -/
theorem engineAfterWord_inv (T : Tables) (w : Word) {e : Engine} (h : e.Inv) : (engineAfterWord T w e).Inv := by
  obtain ⟨len, -, h1, h32, heq⟩ | ⟨hpk, hkv⟩ := engineAfterWord_pk_keyValid T w e
  · rw [heq]
    exact ⟨by simp, fun _ => ⟨e.keybuf, len, h1, h32, rfl⟩⟩
  · exact h.congr (engineAfterWord_err_le T w e) hpk hkv

/-- Every host write keeps the engine's invariant (20_memory.md R77). -/
theorem writeRegister_inv {e : Engine} (h : e.Inv) (r : RegName) (v : Word) : (e.writeRegister r v).Inv := by
  obtain ⟨hpk, -, hkv, herr⟩ := writeRegister_readOnly e r v
  exact h.congr (herr ▸ h.1) hpk hkv

/-- Settles O55: the invariant over each of the things a step can do (`step_cases`). -/
theorem everyStepKeepsTheInvariant : Obligations.EveryStepKeepsTheInvariant := by
  unfold Obligations.EveryStepKeepsTheInvariant
  intro s t ⟨hT, he, hrst⟩ hstep
  obtain ⟨htab, hcase⟩ := step_cases hstep
  refine ⟨htab ▸ hT, ?_⟩
  obtain ⟨ts, -, rfl⟩ | ⟨ts, -, rfl⟩ | ⟨-, hr, w, -, hcmd⟩ | ⟨hsame, hr⟩ | ⟨-, hr, r, v, hwrite⟩ := hcase
  · exact ⟨Engine.atReset_inv _, fun _ => ⟨rfl, Engine.atReset_statusWord _⟩⟩
  · exact ⟨he, nofun⟩
  · rw [hr, hcmd]
    exact ⟨engineAfterWord_inv _ w he, nofun⟩
  · rw [hr, hsame]
    exact ⟨he, hrst⟩
  · rw [hr, hwrite]
    exact ⟨writeRegister_inv he r v, nofun⟩

/-- Settles O56: the engine at reset meets the invariant, and the default tables are permutations. -/
theorem resetMeetsTheInvariant : Obligations.ResetMeetsTheInvariant := by
  unfold Obligations.ResetMeetsTheInvariant
  have h : ∀ T : Tables, T.Valid → (State.resetWith T).Inv := fun T hT => ⟨hT, Engine.atReset_inv 0, nofun⟩
  exact ⟨h, h defaultTables defaultTables_valid⟩

/-! ### The engine over a step -/

/-- Everything a step can do to the engine: reset it, complete the pending word, or at most write one register by the
host. -/
theorem step_engine_cases {s t : State} (h : step s = .next t) :
    ((∃ ts, s.turns = .assertReset :: ts) ∧ t.engine = Engine.atReset s.draws) ∨
    (∃ w, s.engine.pending = some w ∧ t.engine = engineAfterWord s.tables w s.engine) ∨
    t.engine = s.engine ∨ ∃ r v, t.engine = s.engine.writeRegister r v := by
  obtain ⟨-, ⟨ts, hts, rfl⟩ | ⟨ts, -, rfl⟩ | ⟨-, -, hcmd⟩ | ⟨hsame, -⟩ | ⟨-, -, hwrite⟩⟩ := step_cases h
  · exact .inl ⟨⟨ts, hts⟩, rfl⟩
  · exact .inr (.inr (.inl rfl))
  · exact .inr (.inl hcmd)
  · exact .inr (.inr (.inl hsame))
  · exact .inr (.inr (.inr hwrite))

/-- The prekeys and `KEY_VALID` over a step: reset, a successful `SETKEY`, or no change (10_state.md R34, R45). -/
theorem step_pk_keyValid {s t : State} (h : step s = .next t) :
    ((∃ ts, s.turns = .assertReset :: ts) ∧ t.engine.keyValid = false) ∨
    ((∃ w len, s.engine.pending = some w ∧ decode w = .ok (.setkey len) ∧ 1 ≤ len ∧ len ≤ 32 ∧
      t.engine.err = 0 ∧ t.engine.pending = none) ∧ t.engine.keyValid = true) ∨
    (t.engine.pk = s.engine.pk ∧ t.engine.keyValid = s.engine.keyValid) := by
  obtain ⟨hts, hreset⟩ | ⟨w, hw, hcmd⟩ | hsame | ⟨r, v, hwrite⟩ := step_engine_cases h
  · exact .inl ⟨hts, by rw [hreset]; rfl⟩
  · obtain ⟨len, hdec, h1, h32, heq⟩ | hkeep := engineAfterWord_pk_keyValid s.tables w s.engine
    · rw [hcmd, heq]
      exact .inr (.inl ⟨⟨w, len, hw, hdec, h1, h32, rfl, rfl⟩, rfl⟩)
    · rw [hcmd]
      exact .inr (.inr hkeep)
  · rw [hsame]
    exact .inr (.inr ⟨rfl, rfl⟩)
  · obtain ⟨hpk, -, hkv, -⟩ := writeRegister_readOnly s.engine r v
    rw [hwrite]
    exact .inr (.inr ⟨hpk, hkv⟩)

/-- `RK` over a step: reset, a successful `ROUNDKEY`, or no change (10_state.md R44). -/
theorem step_rk {s t : State} (h : step s = .next t) :
    (∃ ts, s.turns = .assertReset :: ts) ∨
    (∃ w r, s.engine.pending = some w ∧ decode w = .ok (.roundkey r) ∧ r ≤ 32 ∧ s.engine.keyValid = true ∧
      t.engine.err = 0 ∧ t.engine.pending = none) ∨
    t.engine.rk = s.engine.rk := by
  obtain ⟨hts, -⟩ | ⟨w, hw, hcmd⟩ | hsame | ⟨r, v, hwrite⟩ := step_engine_cases h
  · exact .inl hts
  · rw [hcmd]
    obtain ⟨r, hdec, hr, hk, herr⟩ | hkeep := engineAfterWord_rk s.tables w s.engine
    · exact .inr (.inl ⟨w, r, hw, hdec, hr, hk, herr, engineAfterWord_pending _ _ _⟩)
    · exact .inr (.inr hkeep)
  · rw [hsame]
    exact .inr (.inr rfl)
  · obtain ⟨-, hrk, -, -⟩ := writeRegister_readOnly s.engine r v
    rw [hwrite]
    exact .inr (.inr hrk)

/-- Settles O57: `step_cases` for a step, `exec_eq` for a command. -/
theorem noStepChangesTheTables : Obligations.NoStepChangesTheTables := by
  unfold Obligations.NoStepChangesTheTables
  refine ⟨fun s t h => (step_cases h).1, fun i s t h => ?_⟩
  rw [exec_eq] at h
  cases h
  rfl

/-- Settles O58: only reset clears `KEY_VALID` and only `SETKEY` sets it (`step_pk_keyValid`). -/
theorem keyValidIsSetBySetkeyAndClearedByReset : Obligations.KeyValidIsSetBySetkeyAndClearedByReset := by
  unfold Obligations.KeyValidIsSetBySetkeyAndClearedByReset
  intro s t h
  obtain ⟨hreset, hkv⟩ | ⟨hsetkey, hkv⟩ | ⟨-, hkv⟩ := step_pk_keyValid h
  · exact ⟨fun _ _ => hreset, fun _ hset => absurd (hkv.symm.trans hset) (by decide)⟩
  · exact ⟨fun _ hclear => absurd (hkv.symm.trans hclear) (by decide), fun _ _ => hsetkey⟩
  · exact ⟨fun hold hclear => absurd (hold.symm.trans (hkv.symm.trans hclear)) (by decide),
      fun hold hset => absurd (hold.symm.trans (hkv.symm.trans hset)) (by decide)⟩

/-- Settles O59: `step_pk_keyValid` for the prekeys, `step_rk` for `RK`. -/
theorem prekeysAndRoundKeyChangeOnlyByTheirCommands : Obligations.PrekeysAndRoundKeyChangeOnlyByTheirCommands := by
  unfold Obligations.PrekeysAndRoundKeyChangeOnlyByTheirCommands
  intro s t h
  refine ⟨fun hne => ?pk, fun hne => ?rk⟩
  case pk =>
    obtain ⟨hreset, -⟩ | ⟨hsetkey, -⟩ | ⟨hpk, -⟩ := step_pk_keyValid h
    · exact .inl hreset
    · exact .inr hsetkey
    · exact absurd hpk hne
  case rk =>
    obtain hreset | hroundkey | hrk := step_rk h
    · exact .inl hreset
    · exact .inr hroundkey
    · exact absurd hrk hne

/-- A host write while busy changes at most `OVR`, and does not clear it (10_state.md R36). -/
theorem writeRegister_while_busy {e : Engine} (hb : e.busy = true) (r : RegName) (v : Word) :
    e.writeRegister r v = { e with ovr := (e.writeRegister r v).ovr } ∧
      (e.ovr = true → (e.writeRegister r v).ovr = true) := by
  obtain ⟨-, heq⟩ | ⟨-, -, heq⟩ | ⟨-, hidle, -⟩ := writeRegister_cases e r v
  · rw [heq]
    exact ⟨rfl, id⟩
  · rw [heq]
    exact ⟨rfl, fun _ => rfl⟩
  · exact absurd (hb.symm.trans hidle) (by decide)

/-- Settles O60: reset and the completion leave nothing pending, and a host write while busy sets at most `OVR`. -/
theorem runningCommandsNeverSeeTheirInputsChange : Obligations.RunningCommandsNeverSeeTheirInputsChange := by
  unfold Obligations.RunningCommandsNeverSeeTheirInputsChange
  intro s t h hs ht
  obtain ⟨-, hreset⟩ | ⟨w, -, hcmd⟩ | hsame | ⟨r, v, hwrite⟩ := step_engine_cases h
  · simp [hreset, Engine.busy] at ht
  · simp [hcmd, Engine.busy, engineAfterWord_pending] at ht
  · rw [hsame]
    exact ⟨rfl, id⟩
  · rw [hwrite]
    exact writeRegister_while_busy hs r v

/-! ### The registers a command reads and writes (10_state.md R50) -/

/-- Two ends of a command that agree: the same `ERR`, and after a success the same values in the registers listed. -/
def EndsAgree (ds : List DataReg) (f f' : Engine) : Prop :=
  f.err = f'.err ∧ (f.err = 0 → ∀ d ∈ ds, d.same f f')

theorem endsAgree_raise (ds : List DataReg) (e e' : Engine) (c : ErrorCode) : EndsAgree ds (e.raise c) (e'.raise c) :=
  ⟨rfl, fun h => absurd h c.code_range.1⟩

theorem endsAgree_done {ds : List DataReg} {e e' : Engine} (h : ∀ d ∈ ds, d.same e e') :
    EndsAgree ds e.done e'.done :=
  ⟨rfl, fun _ d hd => by have := h d hd; cases d <;> exact this⟩

theorem endsAgree_withKey {ds : List DataReg} {e e' : Engine} {f : Engine → Engine} (hk : e'.keyValid = e.keyValid)
    (h : EndsAgree ds (f e) (f e')) : EndsAgree ds (e.withKey f) (e'.withKey f) := by
  unfold Engine.withKey
  rw [hk]
  split
  · exact h
  · exact endsAgree_raise ds e e' _

theorem endsAgree_layer {e e' : Engine} (f : Block → Block) (h : e'.blk = e.blk) :
    EndsAgree [.blk] (e.applyLayer f) (e'.applyLayer f) :=
  endsAgree_done fun d hd => by
    obtain rfl := List.mem_singleton.1 hd
    exact congrArg f h

/-- A command ends alike from engines that agree on the registers its row marks R (10_state.md R50). -/
theorem engineAfter_agrees (T : Tables) (i : Instr) {e e' : Engine} (h : ∀ d ∈ registersRead i, d.same e e') :
    EndsAgree (registersWritten i) (engineAfter T i e) (engineAfter T i e') := by
  cases i with
  | setkey len =>
    have hkey : e'.keybuf = e.keybuf := h .keybuf (by simp [registersRead])
    simp only [engineAfter, Engine.setkey]
    split
    · exact endsAgree_done (by simp [registersWritten, DataReg.same, hkey])
    · exact endsAgree_raise _ _ _ _
  | roundkey r =>
    have hpk : e'.pk = e.pk := h .pk (by simp [registersRead])
    simp only [engineAfter, Engine.roundkey]
    split
    · refine endsAgree_withKey (h .keyValid (by simp [registersRead])) (endsAgree_done ?_)
      simp [registersWritten, DataReg.same, hpk]
    · exact endsAgree_raise _ _ _ _
  | encrypt | decrypt =>
    have hpk : e'.pk = e.pk := h .pk (by simp [registersRead])
    have hblk : e'.blk = e.blk := h .blk (by simp [registersRead])
    refine endsAgree_withKey (h .keyValid (by simp [registersRead])) (endsAgree_done ?_)
    simp [registersWritten, DataReg.same, hpk, hblk]
  | sbox | sboxInv | ip | fp | lt | ltInv => exact endsAgree_layer _ (h .blk (by simp [registersRead]))
  | cbcInit =>
    have hpk : e'.pk = e.pk := h .pk (by simp [registersRead])
    obtain ⟨hhi, hlo⟩ : e'.nonceHi = e.nonceHi ∧ e'.nonceLo = e.nonceLo := h .nonce (by simp [registersRead])
    refine endsAgree_withKey (h .keyValid (by simp [registersRead])) (endsAgree_done ?_)
    simp [registersWritten, DataReg.same, hpk, hhi, hlo]
  | cbcEnc n =>
    have hpk : e'.pk = e.pk := h .pk (by simp [registersRead])
    have hblk : e'.blk = e.blk := h .blk (by simp [registersRead])
    have hiv : e'.iv = e.iv := h .iv (by simp [registersRead])
    simp only [engineAfter, Engine.cbcEnc]
    split
    · refine endsAgree_withKey (h .keyValid (by simp [registersRead])) (endsAgree_done ?_)
      simp [registersWritten, DataReg.same, hpk, hblk, hiv]
    · exact endsAgree_raise _ _ _ _
  | cbcDec =>
    have hpk : e'.pk = e.pk := h .pk (by simp [registersRead])
    have hblk : e'.blk = e.blk := h .blk (by simp [registersRead])
    have hiv : e'.iv = e.iv := h .iv (by simp [registersRead])
    refine endsAgree_withKey (h .keyValid (by simp [registersRead])) (endsAgree_done ?_)
    simp [registersWritten, DataReg.same, hpk, hblk, hiv]

/-- Settles O54: the frame is that of the two ends of a command (`engineAfter_ends`), the dependence is
`engineAfter_agrees`. -/
theorem commandsUseOnlyTheRegistersOfTheirRow : Obligations.CommandsUseOnlyTheRegistersOfTheirRow := by
  unfold Obligations.CommandsUseOnlyTheRegistersOfTheirRow
  refine ⟨fun i s t h => ?frame, fun i s s' t t' h h' htab hread => ?dependence⟩
  case frame =>
    rw [exec_eq] at h
    cases h
    obtain ⟨e', hdone, hovr, herrs, hsame⟩ | ⟨c, hraise⟩ := engineAfter_ends s.tables i s.engine
    · obtain ⟨honly, herr, -⟩ := succeeds_done s e' hovr herrs hsame
      rw [hdone, if_pos herr]
      exact honly
    · obtain ⟨honly, herr, -⟩ := failsWith_raise s c
      rw [hraise, if_neg (by rw [herr]; exact c.code_range.1)]
      exact honly
  case dependence =>
    rw [exec_eq] at h h'
    cases h
    cases h'
    rw [htab]
    exact engineAfter_agrees s'.tables i hread

end Sys2Proof.Machine
end

section
/-! Turns and reset (10_state.md R61, 70_reset_and_hazards.md R270 to R274): what the step is for each turn, listed or by
default (log 5), the host's statements (30_encoding.md R106, R107), and that a legal host program never stops the
machine. -/

namespace Sys2Proof.Machine

/-! ### The step of each turn -/

/-- The step is the turn at the head of the list, taken off it. -/
theorem step_listed {s : State} {turn : Turn} {ts : List Turn} (h : s.turns = turn :: ts) :
    step s = takeTurn turn { s with turns := ts } := by
  simp only [step, nextTurn, h]

/-- With no turn listed the step is the default turn (log 5). -/
theorem step_default {s : State} (h : s.turns = []) : step s = takeTurn (defaultTurn s) s := by
  simp only [step, nextTurn, h]

theorem defaultTurn_busy {s : State} (h : s.engine.busy = true) : defaultTurn s = .engine := if_pos h

theorem defaultTurn_idle {s : State} (h : s.engine.busy = false) : defaultTurn s = .host :=
  if_neg (Bool.eq_false_iff.1 h)

theorem busy_of_pending {e : Engine} {w : Word} (h : e.pending = some w) : e.busy = true := by
  simp [Engine.busy, h]

theorem idle_of_not_pending {e : Engine} (h : e.pending = none) : e.busy = false := by
  simp [Engine.busy, h]

/-- Out of reset the engine's turn completes the pending word (70_reset_and_hazards.md R273). -/
theorem engineTurn_of_pending {s : State} {w : Word} (hrst : s.rst = false) (hw : s.engine.pending = some w) :
    engineTurn s = completeCommand w s := by
  simp [engineTurn, hrst, hw]

/-- An idle engine waits (70_reset_and_hazards.md R271). -/
theorem engineTurn_idle {s : State} (h : s.engine.pending = none) : engineTurn s = .next s := by
  simp [engineTurn, h]

/-- With no turn listed a pending word is completed, out of reset (log 5). -/
theorem step_default_of_pending {s : State} {w : Word} (hrst : s.rst = false) (hw : s.engine.pending = some w)
    (hts : s.turns = []) : step s = completeCommand w s := by
  rw [step_default hts, defaultTurn_busy (busy_of_pending hw)]
  exact engineTurn_of_pending hrst hw

/-- With no turn listed and an idle engine the host moves (log 5). -/
theorem step_default_of_idle {s : State} (hb : s.engine.busy = false) (hts : s.turns = []) :
    step s = hostTurn s := by
  rw [step_default hts, defaultTurn_idle hb]
  rfl

/-! ### Reset -/

/-- Settles O6: `STATUS` at reset is `Engine.atReset_statusWord`, the rest stands in the reset state. -/
theorem resetLeavesTheEngineIdleWithStatusZero : Obligations.ResetLeavesTheEngineIdleWithStatusZero := by
  unfold Obligations.ResetLeavesTheEngineIdleWithStatusZero
  exact ⟨fun T => ⟨Engine.atReset_statusWord 0, rfl, rfl, rfl, rfl⟩, rfl⟩

/-- Settles O7: the step is `State.assertReset`, which leaves the engine at its reset values. -/
theorem assertingResetClearsStatusAndAbandonsTheCommand :
    Obligations.AssertingResetClearsStatusAndAbandonsTheCommand := by
  unfold Obligations.AssertingResetClearsStatusAndAbandonsTheCommand
  intro s ts hts
  exact ⟨State.assertReset { s with turns := ts }, step_listed hts, rfl, Engine.atReset_statusWord _, rfl,
    State.assertReset_turns _, State.assertReset_program _, State.assertReset_results _⟩

/-- Under reset a write is ignored (70_reset_and_hazards.md R270). -/
theorem writeWord_under_reset {s : State} (h : s.rst = true) (off : Nat) (v : Word) : s.writeWord off v = s := by
  rw [State.writeWord, if_pos h]

/-- Under reset a read answers a free draw (70_reset_and_hazards.md R270; log 3). -/
theorem readWord_under_reset {s : State} (h : s.rst = true) (off : Nat) : s.readWord off = s.draw := by
  rw [State.readWord, if_pos h]

/-- Settles O8: the four moves under reset are the two accesses above, the engine's turn and the release. -/
theorem accessesUnderResetAreIgnoredOrFree : Obligations.AccessesUnderResetAreIgnoredOrFree := by
  unfold Obligations.AccessesUnderResetAreIgnoredOrFree
  refine ⟨fun s off v hrst hoff ha => ?write, fun s off hrst hoff ha => ⟨_, ?read, rfl⟩, fun s ts hrst hts => ?engine,
    fun s ts hts => step_listed hts⟩
  case write => rw [busAccess_write s v hoff ha, writeWord_under_reset hrst]
  case read =>
    rw [busAccess_read s hoff ha, readWord_under_reset hrst]
    rfl
  case engine =>
    rw [step_listed hts]
    exact if_pos hrst

/-! ### The engine's turn -/

/-- The completion of a word that decodes is `exec` of its command (70_reset_and_hazards.md R273). -/
theorem completeCommand_of_ok {w : Word} {i : Instr} (h : decode w = .ok i) (s : State) :
    completeCommand w s = exec i s := by
  simp only [completeCommand, h]

/-- Settles O9: listed or by default, the engine's turn completes the pending word, which is `exec` of its command. -/
theorem engineTurnRunsTheDecodedCommand : Obligations.EngineTurnRunsTheDecodedCommand := by
  unfold Obligations.EngineTurnRunsTheDecodedCommand
  intro s w i hrst hw hdec
  refine ⟨fun ts hts => ?listed, fun hts => ?default⟩
  case listed => rw [step_engine_of_pending hrst hw hts, completeCommand_of_ok hdec]
  case default => rw [step_default_of_pending hrst hw hts, completeCommand_of_ok hdec]

/-! ### The host's turn -/

theorem hostTurn_ended {s : State} (h : s.program = []) : hostTurn s = .next s := by
  simp only [hostTurn, h]

theorem hostTurn_bus {s : State} {a : BusAccess} {ops : List HostOp} (h : s.program = .bus a :: ops) :
    hostTurn s = busAccess a { s with program := ops } := by
  simp only [hostTurn, h]

theorem hostTurn_poll {s : State} {ops : List HostOp} (h : s.program = .poll :: ops) :
    hostTurn s = .next (pollStatus { s with program := ops }) := by
  simp only [hostTurn, h]

/-- Settles O11: the host's turn performs the access at the head of its program (`hostTurn_bus`). -/
theorem hostTurnPerformsTheNextStatement : Obligations.HostTurnPerformsTheNextStatement := by
  unfold Obligations.HostTurnPerformsTheNextStatement
  intro s a ops hprog
  refine ⟨fun ts hts => ?listed, fun hts hp => ?default⟩
  case listed =>
    rw [step_listed hts]
    exact hostTurn_bus hprog
  case default => rw [step_default_of_idle (idle_of_not_pending hp) hts, hostTurn_bus hprog]

/-- Bit 0 of `STATUS` is `BUSY` (10_state.md R38). -/
theorem statusWord_bit_zero (e : Engine) : e.statusWord.getLsbD 0 = e.busy := by
  rw [Engine.statusWord_getLsbD]
  simp

/-- A poll out of reset: it stays the next statement while busy, else it ends with `STATUS` as its result (30_encoding.md
R107). -/
theorem pollStatus_eq {s : State} (hrst : s.rst = false) :
    pollStatus s = if s.engine.busy then { s with program := .poll :: s.program }
      else s.record (busAddress 0x004) s.engine.statusWord := by
  have hread : s.readWord (offsetOf .status) = (s.engine.statusWord, s) := readWord_of_value hrst rfl
  simp only [pollStatus, hread, statusWord_bit_zero]
  rfl

/-- While busy a poll stays the next statement (30_encoding.md R107). -/
theorem hostTurn_poll_busy {s : State} {ops : List HostOp} (hprog : s.program = .poll :: ops) (hrst : s.rst = false)
    (hb : s.engine.busy = true) : hostTurn s = .next s := by
  rw [hostTurn_poll hprog, pollStatus_eq (s := { s with program := ops }) hrst, if_pos hb, ← hprog]

/-- An idle engine ends the poll (30_encoding.md R107). -/
theorem hostTurn_poll_idle {s : State} {ops : List HostOp} (hprog : s.program = .poll :: ops) (hrst : s.rst = false)
    (hb : s.engine.busy = false) :
    hostTurn s = .next { s with
      program := ops, results := ⟨Config.base + 4, s.engine.statusWord⟩ :: s.results } := by
  rw [hostTurn_poll hprog, pollStatus_eq (s := { s with program := ops }) hrst, if_neg (Bool.eq_false_iff.1 hb)]
  rfl

/-- Settles O12: the host's turn at a poll, while busy and while idle. -/
theorem pollRepeatsUntilBusyIsZero : Obligations.PollRepeatsUntilBusyIsZero := by
  unfold Obligations.PollRepeatsUntilBusyIsZero
  intro s ops hrst hprog
  refine ⟨fun ts hts => ⟨fun hb => ?busy, fun hb => ?idle⟩, fun hts hb => ?default⟩
  case busy =>
    rw [step_listed hts]
    exact hostTurn_poll_busy hprog hrst hb
  case idle =>
    rw [step_listed hts]
    exact hostTurn_poll_idle hprog hrst hb
  case default => rw [step_default_of_idle hb hts, hostTurn_poll_idle hprog hrst hb]

/-- Settles O13: an idle engine and an ended host program take no step of their own. -/
theorem idleEngineAndEndedHostWait : Obligations.IdleEngineAndEndedHostWait := by
  unfold Obligations.IdleEngineAndEndedHostWait
  refine ⟨fun s ts hp hts => ?engine, fun s ts hprog hts => ?host, fun s hp hts hprog => ?default⟩
  case engine =>
    rw [step_listed hts]
    exact engineTurn_idle hp
  case host =>
    rw [step_listed hts]
    exact hostTurn_ended hprog
  case default => rw [step_default_of_idle (idle_of_not_pending hp) hts, hostTurn_ended hprog]

/-- With no turn listed the step is the one with the default turn listed (log 5). -/
theorem step_default_eq_listed {s : State} (h : s.turns = []) :
    step s = step { s with turns := [defaultTurn s] } := by
  rw [step_default h, step_listed (s := { s with turns := [defaultTurn s] }) rfl, ← h]

/-- Settles O14: the default turn by `BUSY`, and the completion of an illegal word. -/
theorem withNoTurnListedThePendingCommandElseTheHostMoves :
    Obligations.WithNoTurnListedThePendingCommandElseTheHostMoves := by
  unfold Obligations.WithNoTurnListedThePendingCommandElseTheHostMoves
  intro s hts
  refine ⟨fun hb => ?busy, fun hb => ?idle, fun w e hrst hw hdec => ?illegal⟩
  case busy => rw [step_default_eq_listed hts, defaultTurn_busy hb]
  case idle => rw [step_default_eq_listed hts, defaultTurn_idle hb]
  case illegal =>
    rw [step_default_of_pending hrst hw hts]
    exact completeCommand_illegal (by simp [hdec]) s

/-! ### Accesses the bus interface does not define -/

/-- Settles O22: inside the window the width is checked first, then the alignment (log 8). -/
theorem subWordAndMisalignedAccessesAreRefused : Obligations.SubWordAndMisalignedAccessesAreRefused := by
  unfold Obligations.SubWordAndMisalignedAccessesAreRefused
  intro s off a hoff
  exact ⟨by simp [busAccess, windowOffset_busAddress hoff], by simp [busAccess, windowOffset_busAddress hoff],
    fun ha => by simp [busAccess, windowOffset_busAddress hoff, ha]⟩

/-- Settles O23: an address outside the window has no offset (`windowOffset_outside`). -/
theorem accessesOutsideTheWindowFault : Obligations.AccessesOutsideTheWindowFault := by
  unfold Obligations.AccessesOutsideTheWindowFault
  intro s addr width a h
  simp only [busAccess, windowOffset_outside h]

/-! ### Legal host programs -/

/-- A legal bus access is performed (20_memory.md R74). -/
theorem busAccess_of_wellFormed {a : BusAccess} (h : a.wellFormed = true) (s : State) :
    ∃ t, busAccess a s = .next t := by
  obtain ⟨hw, off, hoff, ha, -⟩ := wellFormed_access h
  unfold busAccess
  rw [hoff, hw]
  cases a.access with
  | read => exact ⟨_, by simp [ha]; rfl⟩
  | write v => exact ⟨_, by simp [ha]; rfl⟩

/-- Whether the host's program is legal depends on the program alone. -/
theorem State.HostLegal.of_program_eq {s t : State} (h : s.HostLegal) (hprog : t.program = s.program) :
    t.HostLegal := by
  unfold State.HostLegal
  rwa [hprog]

/-- The host's turn performs a legal statement and leaves a legal program (20_memory.md R74, 30_encoding.md R106). -/
theorem hostTurn_of_legal {s : State} (h : s.HostLegal) : ∃ t, hostTurn s = .next t ∧ t.HostLegal := by
  cases hprog : s.program with
  | nil => exact ⟨s, hostTurn_ended hprog, h⟩
  | cons op ops =>
    obtain ⟨hop, hops⟩ := List.forall_mem_cons.1 (hprog ▸ h : ∀ op' ∈ op :: ops, op'.wellFormed = true)
    have hlegal : State.HostLegal { s with program := ops } := hops
    cases op with
    | bus a =>
      obtain ⟨t, ht⟩ := busAccess_of_wellFormed hop { s with program := ops }
      obtain ⟨-, -, -, hprog', -⟩ := busAccess_engine ht
      exact ⟨t, (hostTurn_bus hprog).trans ht, hlegal.of_program_eq hprog'⟩
    | poll =>
      refine ⟨_, hostTurn_poll hprog, ?_⟩
      obtain ⟨-, -, -, -, hprog' | hprog'⟩ := pollStatus_frame { s with program := ops }
      · exact hlegal.of_program_eq hprog'
      · exact h.of_program_eq (hprog'.trans hprog.symm)

/-- The engine's turn answers a next state with the host's program as it was (70_reset_and_hazards.md R274). -/
theorem exists_engineTurn (s : State) : ∃ t, engineTurn s = .next t ∧ t.program = s.program := by
  cases hrst : s.rst with
  | true => exact ⟨s, if_pos hrst, rfl⟩
  | false =>
    cases hw : s.engine.pending with
    | none => exact ⟨s, engineTurn_idle hw, rfl⟩
    | some w => exact ⟨_, (engineTurn_of_pending hrst hw).trans (completeCommand_eq w s), rfl⟩

/-- Every turn of a machine with a legal host program answers a next state with a legal program. -/
theorem takeTurn_of_legal {s : State} (h : s.HostLegal) (turn : Turn) :
    ∃ t, takeTurn turn s = .next t ∧ t.HostLegal := by
  cases turn with
  | host => exact hostTurn_of_legal h
  | engine =>
    obtain ⟨t, ht, hprog⟩ := exists_engineTurn s
    exact ⟨t, ht, h.of_program_eq hprog⟩
  | assertReset => exact ⟨_, rfl, h.of_program_eq (State.assertReset_program s)⟩
  | releaseReset => exact ⟨_, rfl, h⟩

/-- Settles O24: the step is one turn (`takeTurn_of_legal`). -/
theorem legalHostProgramsNeverStopTheMachine : Obligations.LegalHostProgramsNeverStopTheMachine := by
  unfold Obligations.LegalHostProgramsNeverStopTheMachine
  intro s h
  cases hts : s.turns with
  | nil =>
    rw [step_default hts]
    exact takeTurn_of_legal h _
  | cons turn ts =>
    rw [step_listed hts]
    exact takeTurn_of_legal (s := { s with turns := ts }) h turn

/-! ### Assembled statements -/

/-- An access of a word at an aligned offset of the window is legal (20_memory.md R70, R74). -/
theorem wellFormed_wordAccess {off : Nat} (ha : off % 4 = 0) (hoff : off < 4096) (x : Access) :
    (HostOp.bus ⟨busAddress off, .word, x⟩).wellFormed = true := by
  have hpage : (4096 * Config.basePage + off) / 4096 = Config.basePage := by omega
  have halign : (4096 * Config.basePage + off) % 4 = 0 := by omega
  simp [HostOp.wellFormed, BusAccess.wellFormed, busAddress, Config.base, hpage, halign]

/-- The offset of a register within its range is an aligned offset of the window (20_memory.md R71). -/
theorem offsetOf_aligned {r : RegName} (h : r.wellFormed = true) : offsetOf r % 4 = 0 ∧ offsetOf r < 4096 := by
  cases r with
  | cmd | status | info | nonceLo | nonceHi | reserved => decide
  | key | blk | iv | rk | pk =>
    simp only [RegName.wellFormed, decide_eq_true_eq] at h
    simp only [offsetOf]
    omega

theorem refOffset_aligned {r : RegRef} (h : r.wellFormed = true) : refOffset r % 4 = 0 ∧ refOffset r < 4096 := by
  cases r with
  | named r => exact offsetOf_aligned h
  | offset off => simpa [RegRef.wellFormed, refOffset] using h

/-- Every operation of a list of word accesses, one for each index, is legal when each offset is that of a register. -/
theorem wellFormed_of_mem_map {n : Nat} {reg : Nat → RegName} {f : Nat → Access}
    (h : ∀ k < n, (reg k).wellFormed = true) {op : HostOp}
    (hop : op ∈ (List.range n).map fun k => .bus ⟨busAddress (offsetOf (reg k)), .word, f k⟩) :
    op.wellFormed = true := by
  obtain ⟨k, hk, rfl⟩ := List.mem_map.1 hop
  obtain ⟨ha, hoff⟩ := offsetOf_aligned (h k (List.mem_range.1 hk))
  exact wellFormed_wordAccess ha hoff _

/-- Every operation a statement stands for is legal when its operands are in their ranges (30_encoding.md R106, R107). -/
theorem expand_wellFormed {st : HostStmt} (h : st.wellFormed = true) {op : HostOp} (hop : op ∈ expand st) :
    op.wellFormed = true := by
  cases st with
  | wr r v | rd r =>
    obtain rfl := List.mem_singleton.1 hop
    obtain ⟨ha, hoff⟩ := refOffset_aligned h
    exact wellFormed_wordAccess ha hoff _
  | command | clrerr =>
    obtain rfl := List.mem_singleton.1 hop
    exact wellFormed_wordAccess (by decide) (by decide) _
  | poll =>
    obtain rfl := List.mem_singleton.1 hop
    rfl
  | loadblk b => exact wellFormed_of_mem_map (reg := .blk) (by decide) hop
  | loadiv b => exact wellFormed_of_mem_map (reg := .iv) (by decide) hop
  | loadkey k =>
    simp only [HostStmt.wellFormed, decide_eq_true_eq] at h
    refine wellFormed_of_mem_map (reg := .key) (fun n hn => ?_) hop
    simp only [RegName.wellFormed, decide_eq_true_eq]
    omega
  | loadnonce imm =>
    obtain rfl | hop := List.mem_cons.1 hop
    · exact wellFormed_wordAccess (by decide) (by decide) _
    · obtain rfl := List.mem_singleton.1 hop
      exact wellFormed_wordAccess (by decide) (by decide) _
  | readblk => exact wellFormed_of_mem_map (reg := .blk) (by decide) hop
  | readiv => exact wellFormed_of_mem_map (reg := .iv) (by decide) hop
  | readrk => exact wellFormed_of_mem_map (reg := .rk) (by decide) hop

/-- Settles O25: every operation of the program comes from one statement (`expand_wellFormed`). -/
theorem assembledStatementsAreLegalAccesses : Obligations.AssembledStatementsAreLegalAccesses := by
  unfold Obligations.AssembledStatementsAreLegalAccesses
  intro p hp op hop
  obtain ⟨st, hst, hop⟩ := List.mem_flatMap.1 hop
  exact expand_wellFormed (hp st hst) hop

/-! ### A pending command completes -/

/-- The next step completes the word `w` and leaves the engine idle. -/
def CompletesNow (w : Word) (u : State) : Prop :=
  ∃ t, step u = .next t ∧ completeCommand w { u with turns := u.turns.tail } = .next t ∧ t.engine.busy = false

/-- A step that completes a pending word leaves the engine idle (70_reset_and_hazards.md R273). -/
theorem completesNow_of_step_eq {w : Word} {u : State}
    (h : step u = completeCommand w { u with turns := u.turns.tail }) : CompletesNow w u := by
  refine ⟨_, h.trans (completeCommand_eq _ _), completeCommand_eq _ _, ?_⟩
  exact idle_of_not_pending (engineAfterWord_pending _ _ _)

/-- A machine that is out of reset with the word `w` pending and a legal host program. -/
def AwaitsCompletion (w : Word) (s : State) : Prop :=
  s.rst = false ∧ s.engine.pending = some w ∧ s.HostLegal

/-- While a word is pending the step completes it, or takes a listed turn: a reset, which leaves the engine idle, or one
that keeps the word and its inputs (70_reset_and_hazards.md R270, R273). -/
theorem step_of_awaiting {w : Word} {s : State} (h : AwaitsCompletion w s) :
    CompletesNow w s ∨ ∃ turn ts t, s.turns = turn :: ts ∧ step s = .next t ∧ t.turns = ts ∧
      ((turn = .assertReset ∧ t.engine.busy = false) ∨
        (AwaitsCompletion w t ∧ t.engine = { s.engine with ovr := t.engine.ovr })) := by
  obtain ⟨hrst, hw, hlegal⟩ := h
  cases hts : s.turns with
  | nil =>
    refine .inl (completesNow_of_step_eq ?_)
    rw [step_default_of_pending hrst hw hts, hts, List.tail_nil, ← hts]
  | cons turn ts =>
    cases turn with
    | engine =>
      refine .inl (completesNow_of_step_eq ?_)
      rw [step_engine_of_pending hrst hw hts, hts, List.tail_cons]
    | assertReset => exact .inr ⟨_, ts, _, rfl, step_listed hts, rfl, .inl ⟨rfl, rfl⟩⟩
    | releaseReset => exact .inr ⟨_, ts, _, rfl, step_listed hts, rfl, .inr ⟨⟨rfl, hw, hlegal⟩, rfl⟩⟩
    | host =>
      obtain ⟨t, ht, hlegal'⟩ := hostTurn_of_legal (s := { s with turns := ts }) hlegal
      obtain ⟨-, hrst', hturns, heng⟩ := hostTurn_cases ht
      have hovr : t.engine = { s.engine with ovr := t.engine.ovr } := by
        obtain hsame | ⟨-, r, v, hwrite⟩ := heng
        · rw [hsame]
        · rw [hwrite]
          exact (writeRegister_while_busy (busy_of_pending hw) r v).1
      refine .inr ⟨_, ts, t, rfl, (step_listed hts).trans ht, hturns, .inr ⟨⟨hrst'.trans hrst, ?_, hlegal'⟩, hovr⟩⟩
      rw [hovr]
      exact hw

/-- At most one step more than the listed turns leads to an idle engine (70_reset_and_hazards.md R274). -/
theorem run_reaches_idle {w : Word} {s : State} (h : AwaitsCompletion w s) :
    ∃ k, k ≤ s.turns.length + 1 ∧ ∃ t, Host.Core.run Sys2Proof.core k s = .next t ∧ t.engine.busy = false := by
  induction hts : s.turns generalizing s with
  | nil =>
    obtain ⟨t, hstep, -, hidle⟩ | ⟨turn, ts, t, hcons, -⟩ := step_of_awaiting h
    · exact ⟨1, Nat.le_refl 1, t, core_run_succ 0 hstep, hidle⟩
    · exact absurd (hts.symm.trans hcons) (by simp)
  | cons turn ts ih =>
    obtain ⟨t, hstep, -, hidle⟩ | ⟨turn', ts', t, hcons, hstep, hturns, hcase⟩ := step_of_awaiting h
    · exact ⟨1, by simp, t, core_run_succ 0 hstep, hidle⟩
    · obtain ⟨rfl, rfl⟩ := List.cons.inj (hts.symm.trans hcons)
      obtain ⟨-, hidle⟩ | ⟨hawait, -⟩ := hcase
      · exact ⟨1, by simp, t, core_run_succ 0 hstep, hidle⟩
      · obtain ⟨k, hk, u, hrun, hidle⟩ := ih hawait hturns
        exact ⟨k + 1, Nat.succ_le_succ hk, u, (core_run_succ k hstep).trans hrun, hidle⟩

/-- When no reset is listed, at most the listed turns lead to the completion of the word, on the inputs latched with it
(70_reset_and_hazards.md R273, R274). -/
theorem run_reaches_completion {w : Word} {s : State} (h : AwaitsCompletion w s) (hno : Turn.assertReset ∉ s.turns) :
    ∃ k, k ≤ s.turns.length ∧ ∃ u, Host.Core.run Sys2Proof.core k s = .next u ∧
      u.engine = { s.engine with ovr := u.engine.ovr } ∧ CompletesNow w u := by
  induction hts : s.turns generalizing s with
  | nil =>
    obtain hnow | ⟨turn, ts, t, hcons, -⟩ := step_of_awaiting h
    · exact ⟨0, Nat.le_refl 0, s, rfl, rfl, hnow⟩
    · exact absurd (hts.symm.trans hcons) (by simp)
  | cons turn ts ih =>
    obtain hnow | ⟨turn', ts', t, hcons, hstep, hturns, hcase⟩ := step_of_awaiting h
    · exact ⟨0, Nat.zero_le _, s, rfl, rfl, hnow⟩
    · obtain ⟨rfl, rfl⟩ := List.cons.inj (hts.symm.trans hcons)
      rw [hts, List.mem_cons, not_or] at hno
      obtain ⟨hhead, htail⟩ := hno
      obtain ⟨hreset, -⟩ | ⟨hawait, hovr⟩ := hcase
      · exact absurd hreset.symm hhead
      · obtain ⟨k, hk, u, hrun, hu, hnow⟩ := ih hawait (hturns.symm ▸ htail) hturns
        refine ⟨k + 1, Nat.succ_le_succ hk, u, (core_run_succ k hstep).trans hrun, ?_, hnow⟩
        rw [hu, hovr]

/-- Settles O15: `run_reaches_idle`, and without a listed reset `run_reaches_completion`. -/
theorem pendingCommandCompletesUnlessAListedResetAbandonsIt :
    Obligations.PendingCommandCompletesUnlessAListedResetAbandonsIt := by
  unfold Obligations.PendingCommandCompletesUnlessAListedResetAbandonsIt
  intro s w hrst hw hlegal
  refine ⟨run_reaches_idle ⟨hrst, hw, hlegal⟩, fun hno => ?_⟩
  obtain ⟨k, hk, u, hrun, hu, t, hstep, hcomplete, hidle⟩ := run_reaches_completion ⟨hrst, hw, hlegal⟩ hno
  exact ⟨k, hk, u, t, hrun, hu, hstep, hcomplete, hidle⟩

end Sys2Proof.Machine
end

section
/-! The register window of an idle engine (20_memory.md): what a read answers at each offset (R76), what a data write
leaves at every offset (R77, R79), and the host's load statements (30_encoding.md R107). -/

namespace Sys2Proof.Machine

/-! ### Reads -/

/-- The value of a register that a read of an idle engine answers (20_memory.md R71, R76). -/
def Engine.registerValue (e : Engine) : RegName → Word
  | .cmd => 0
  | .status => e.statusWord
  | .info => infoWord
  | .reserved => 0
  | .key n => be32 e.keybuf n
  | .blk n => be32 e.blk n
  | .iv n => be32 e.iv n
  | .nonceLo => e.nonceLo
  | .nonceHi => e.nonceHi
  | .rk n => be32 e.rk n
  | .pk i => e.pk.toList.getD i 0

theorem readRegister_of_idle {e : Engine} (h : e.busy = false) (r : RegName) :
    e.readRegister r = some (e.registerValue r) := by
  cases r <;> simp [Engine.readRegister, Engine.registerValue, h]

/-- A word read of an idle engine out of reset adds the register's value to the host's results and changes nothing else
(20_memory.md R76). -/
theorem busAccess_read_idle {s : State} {off : Nat} (hrst : s.rst = false) (hp : s.engine.pending = none)
    (hoff : off < 4096) (ha : off % 4 = 0) :
    busAccess ⟨busAddress off, .word, .read⟩ s = .next { s with
      results := ⟨busAddress off, s.engine.registerValue (registerAt off)⟩ :: s.results } := by
  rw [busAccess_read s hoff ha, readWord_of_value hrst (readRegister_of_idle (idle_of_not_pending hp) _)]
  rfl

/-- The four bytes of a buffer's word, the first in bits 31..24 (20_memory.md R72). -/
theorem extract_be32 {n : Nat} (b : Vector Byte n) (k : Nat) {o : Nat} (h : o < 4) :
    (be32 b k).extractLsb' (24 - 8 * o) 8 = byteAt b (4 * k + o) := by
  rw [← wordByte_eq_extract, wordByte_be32 b k h]

/-- Settles O17: the value is `Engine.registerValue` of the register that the offset names. -/
theorem idleReadAnswersTheRegisterAtTheOffset : Obligations.IdleReadAnswersTheRegisterAtTheOffset := by
  unfold Obligations.IdleReadAnswersTheRegisterAtTheOffset
  intro s off hrst hp hoff ha
  refine ⟨_, busAccess_read_idle hrst hp hoff ha, ?cmd, ?status, ?info, ?key, ?blk, ?iv, ?nonceLo, ?nonceHi, ?rk, ?pk,
    fun h => ?reserved⟩
  case cmd => rintro rfl; rfl
  case status => rintro rfl; rfl
  case info => rintro rfl; rfl
  case nonceLo => rintro rfl; rfl
  case nonceHi => rintro rfl; rfl
  case key =>
    intro n hn h o ho
    rw [registerAt_key hn h]
    exact extract_be32 _ n ho
  case blk =>
    intro n hn h o ho
    rw [registerAt_blk hn h]
    exact extract_be32 _ n ho
  case iv =>
    intro n hn h o ho
    rw [registerAt_iv hn h]
    exact extract_be32 _ n ho
  case rk =>
    intro n hn h o ho
    rw [registerAt_rk hn h]
    exact extract_be32 _ n ho
  case pk =>
    intro i h
    rw [registerAt_pk i.isLt h]
    simp [Engine.registerValue]
  case reserved =>
    rw [registerAt_reserved h]
    rfl

/-- Settles O19: a read is at most a free draw (`readWord_state`), and one result. -/
theorem readsChangeNoState : Obligations.ReadsChangeNoState := by
  unfold Obligations.ReadsChangeNoState
  intro s t addr width h
  obtain ⟨off, -, -, -, ⟨-, rfl⟩ | ⟨v, hwrite, -⟩⟩ := busAccess_cases h
  · simp only [State.record_engine, State.record_rst, State.record_program, State.record_turns, State.record_results]
    obtain hsame | hdraw := readWord_state s off
    · rw [hsame]
      exact ⟨rfl, rfl, rfl, rfl, _, rfl⟩
    · rw [hdraw]
      exact ⟨rfl, rfl, rfl, rfl, _, rfl⟩
  · cases hwrite

/-! ### Data writes -/

/-- The registers between 0x010 and 0x054: `KEY`, `BLK`, `IV` and the nonce (20_memory.md R71). -/
def IsInput : RegName → Prop
  | .key _ | .blk _ | .iv _ | .nonceLo | .nonceHi => True
  | .cmd | .status | .info | .rk _ | .pk _ | .reserved => False

theorem isInput_registerAt {off : Nat} (h : 0x010 ≤ off) (h' : off ≤ 0x054) (ha : off % 4 = 0) :
    IsInput (registerAt off) ∧ (registerAt off).wellFormed = true ∧ offsetOf (registerAt off) = off := by
  obtain ⟨-, hres⟩ | ⟨r, hr, rfl, hwf⟩ := registerAt_reserved_or_named ha
  · omega
  · rw [hr]
    refine ⟨?_, hwf, rfl⟩
    cases r with
    | key | blk | iv | nonceLo | nonceHi => trivial
    | cmd | status | info | rk | pk | reserved => simp only [offsetOf] at h h'; omega

/-- A write of an input register issues no command (20_memory.md R77). -/
theorem writeIdle_pending {r : RegName} (h : IsInput r) (e : Engine) (v : Word) :
    (e.writeIdle r v).pending = e.pending := by
  cases r with
  | key | blk | iv | nonceLo | nonceHi => simp only [Engine.writeIdle]
  | cmd | status | info | rk | pk | reserved => exact h.elim

/-- An input register reads back the word written (20_memory.md R79). -/
theorem registerValue_writeIdle_same {r : RegName} (h : IsInput r) (hwf : r.wellFormed = true) (e : Engine) (v : Word) :
    (e.writeIdle r v).registerValue r = v := by
  cases r with
  | nonceLo | nonceHi => rfl
  | key n | blk n | iv n =>
    simp only [RegName.wellFormed, decide_eq_true_eq] at hwf
    simp only [Engine.writeIdle, Engine.registerValue]
    exact be32_putWord_same _ n v (by omega)
  | cmd | status | info | rk | pk | reserved => exact h.elim

/-- A write of an input register leaves every other register's value as it was (20_memory.md R77). -/
theorem registerValue_writeIdle_other {r r' : RegName} (h : IsInput r) (hne : r' ≠ r)
    (hwf : r'.wellFormed = true ∨ r' = .reserved) (e : Engine) (v : Word) :
    (e.writeIdle r v).registerValue r' = e.registerValue r' := by
  cases r with
  | nonceLo =>
    cases r' with
    | nonceLo => exact absurd rfl hne
    | cmd | status | info | key | blk | iv | nonceHi | rk | pk | reserved =>
      simp only [Engine.writeIdle, Engine.registerValue, Engine.statusWord, Engine.busy]
  | nonceHi =>
    cases r' with
    | nonceHi => exact absurd rfl hne
    | cmd | status | info | key | blk | iv | nonceLo | rk | pk | reserved =>
      simp only [Engine.writeIdle, Engine.registerValue, Engine.statusWord, Engine.busy]
  | key n =>
    cases r' with
    | key m =>
      simp only [RegName.wellFormed, decide_eq_true_eq, reduceCtorEq, or_false] at hwf
      simp only [Engine.writeIdle, Engine.registerValue]
      exact be32_putWord_other _ v (by omega) (by rintro rfl; exact hne rfl)
    | cmd | status | info | blk | iv | nonceLo | nonceHi | rk | pk | reserved =>
      simp only [Engine.writeIdle, Engine.registerValue, Engine.statusWord, Engine.busy]
  | blk n =>
    cases r' with
    | blk m =>
      simp only [RegName.wellFormed, decide_eq_true_eq, reduceCtorEq, or_false] at hwf
      simp only [Engine.writeIdle, Engine.registerValue]
      exact be32_putWord_other _ v (by omega) (by rintro rfl; exact hne rfl)
    | cmd | status | info | key | iv | nonceLo | nonceHi | rk | pk | reserved =>
      simp only [Engine.writeIdle, Engine.registerValue, Engine.statusWord, Engine.busy]
  | iv n =>
    cases r' with
    | iv m =>
      simp only [RegName.wellFormed, decide_eq_true_eq, reduceCtorEq, or_false] at hwf
      simp only [Engine.writeIdle, Engine.registerValue]
      exact be32_putWord_other _ v (by omega) (by rintro rfl; exact hne rfl)
    | cmd | status | info | key | blk | nonceLo | nonceHi | rk | pk | reserved =>
      simp only [Engine.writeIdle, Engine.registerValue, Engine.statusWord, Engine.busy]
  | cmd | status | info | rk | pk | reserved => exact h.elim

/-- A word write of an input register of an idle engine out of reset (20_memory.md R77). -/
theorem busAccess_write_idle {s : State} {off : Nat} (v : Word) (hrst : s.rst = false) (hp : s.engine.pending = none)
    (hoff : off < 4096) (ha : off % 4 = 0) :
    busAccess ⟨busAddress off, .word, .write v⟩ s =
      .next { s with engine := s.engine.writeIdle (registerAt off) v } := by
  rw [busAccess_write_of_released v hrst hoff ha, writeRegister_of_idle _ v (idle_of_not_pending hp)]

/-- Settles O21: the write leaves the engine idle, and the reads before and after it are those of an idle engine. -/
theorem writtenDataWordReadsBackAndNoOtherWordChanges :
    Obligations.WrittenDataWordReadsBackAndNoOtherWordChanges := by
  unfold Obligations.WrittenDataWordReadsBackAndNoOtherWordChanges
  intro s off off' v hrst hp h10 h54 ha hoff' ha'
  obtain ⟨hinput, hwf, hoffset⟩ := isInput_registerAt h10 h54 ha
  have hp' := (writeIdle_pending hinput s.engine v).trans hp
  refine ⟨_, busAccess_write_idle v hrst hp (by omega) ha, ?same, fun hne => ⟨_, busAccess_read_idle hrst hp hoff' ha',
    ?other⟩⟩
  case same =>
    rw [busAccess_read_idle (by exact hrst) (by exact hp') (by omega) ha, registerValue_writeIdle_same hinput hwf]
  case other =>
    have hregs : registerAt off' ≠ registerAt off := fun heq => by
      obtain ⟨hnamed, -⟩ := registerAt_named ha' (by rw [heq]; rintro hres; rw [hres] at hinput; exact hinput)
      exact hne (by rw [← hnamed, heq, hoffset])
    have hwf' : (registerAt off').wellFormed = true ∨ registerAt off' = .reserved := by
      obtain ⟨hres, -⟩ | ⟨r, hr, -, hwf⟩ := registerAt_reserved_or_named ha'
      · exact .inr hres
      · exact .inl (hr ▸ hwf)
    rw [busAccess_read_idle (by exact hrst) (by exact hp') hoff' ha', registerValue_writeIdle_other hinput hregs hwf']

/-! ### Load statements -/

/-- The host's turn at a write of an input register, on an idle engine out of reset (30_encoding.md R106). -/
theorem step_host_write {s : State} {r : RegName} {v : Word} {ops : List HostOp} {ts : List Turn}
    (hrst : s.rst = false) (hp : s.engine.pending = none) (hwf : r.wellFormed = true)
    (hprog : s.program = wrOp (offsetOf r) v :: ops) (hts : s.turns = .host :: ts) :
    step s = .next { s with engine := s.engine.writeIdle r v, program := ops, turns := ts } := by
  obtain ⟨ha, hoff⟩ := offsetOf_aligned hwf
  have hbus := busAccess_write_idle (s := { s with turns := ts, program := ops }) v hrst hp hoff ha
  rw [registerAt_offsetOf r (.inl hwf)] at hbus
  rw [step_listed hts]
  exact (hostTurn_bus (s := { s with turns := ts }) hprog).trans hbus

/-- The engine after a list of writes, in order. -/
def Engine.writeAll (e : Engine) (ws : List (RegName × Word)) : Engine :=
  ws.foldl (fun e w => e.writeIdle w.1 w.2) e

/-- As many host turns as the host's program starts with writes of input registers perform them all (30_encoding.md
R106). -/
theorem run_host_writes {s : State} {ws : List (RegName × Word)} {ops : List HostOp} {ts : List Turn}
    (hrst : s.rst = false) (hp : s.engine.pending = none) (hws : ∀ w ∈ ws, IsInput w.1 ∧ w.1.wellFormed = true)
    (hprog : s.program = ws.map (fun w => wrOp (offsetOf w.1) w.2) ++ ops)
    (hts : s.turns = List.replicate ws.length .host ++ ts) :
    Host.Core.run Sys2Proof.core ws.length s =
      .next { s with engine := s.engine.writeAll ws, program := ops, turns := ts } := by
  induction ws generalizing s with
  | nil =>
    simp only [List.map_nil, List.length_nil, List.replicate_zero, List.nil_append] at hprog hts
    rw [← hprog, ← hts]
    rfl
  | cons w ws ih =>
    obtain ⟨⟨hinput, hwf⟩, hws⟩ := List.forall_mem_cons.1 hws
    rw [List.length_cons, core_run_succ _ (step_host_write hrst hp hwf hprog hts),
      ih (by exact hrst) (by exact (writeIdle_pending hinput _ _).trans hp) hws rfl rfl]
    rfl

/-- A buffer after a write of each of its first `k` words. -/
def putWords {n : Nat} (b : Vector Byte n) (f : Nat → Word) : Nat → Vector Byte n
  | 0 => b
  | k + 1 => putWord (putWords b f k) k (f k)

theorem byteAt_putWords {n : Nat} (b : Vector Byte n) (f : Nat → Word) (k : Nat) {i : Nat} (h : i < n) :
    byteAt (putWords b f k) i = if i / 4 < k then wordByte (f (i / 4)) (i % 4) else byteAt b i := by
  induction k with
  | zero => rfl
  | succ k ih =>
    rw [putWords, byteAt_putWord _ _ _ h, ih]
    obtain hlt | rfl | hgt := Nat.lt_trichotomy (i / 4) k
    · rw [if_neg (by omega), if_pos hlt, if_pos (by omega)]
    · rw [if_pos rfl, if_pos (by omega)]
    · rw [if_neg (by omega), if_neg (by omega), if_neg (by omega)]

/-- The four words of a block, put into a block, make it that block. -/
theorem putWords_be32 (a b : Block) : putWords a (be32 b) 4 = b := by
  apply buffer_ext
  intro i hi
  rw [byteAt_putWords _ _ _ hi, if_pos (by omega), wordByte_be32 _ _ (Nat.mod_lt i (by decide)), Nat.div_add_mod]

/-- The registers `reg n` are the words of one buffer of the engine, read by `buf` and replaced by `setBuf`
(20_memory.md R72). -/
structure IsBuffer {n : Nat} (reg : Nat → RegName) (buf : Engine → Vector Byte n)
    (setBuf : Engine → Vector Byte n → Engine) : Prop where
  write : ∀ e k v, e.writeIdle (reg k) v = setBuf e (putWord (buf e) k v)
  buf_set : ∀ e b, buf (setBuf e b) = b
  set_buf : ∀ e, setBuf e (buf e) = e
  set_set : ∀ e b c, setBuf (setBuf e b) c = setBuf e c

theorem isBuffer_key : IsBuffer .key Engine.keybuf fun e b => { e with keybuf := b } :=
  ⟨fun _ _ _ => rfl, fun _ _ => rfl, fun _ => rfl, fun _ _ _ => rfl⟩

theorem isBuffer_blk : IsBuffer .blk Engine.blk fun e b => { e with blk := b } :=
  ⟨fun _ _ _ => rfl, fun _ _ => rfl, fun _ => rfl, fun _ _ _ => rfl⟩

theorem isBuffer_iv : IsBuffer .iv Engine.iv fun e b => { e with iv := b } :=
  ⟨fun _ _ _ => rfl, fun _ _ => rfl, fun _ => rfl, fun _ _ _ => rfl⟩

section
variable {n : Nat} {reg : Nat → RegName} {buf : Engine → Vector Byte n} {setBuf : Engine → Vector Byte n → Engine}

/-- Writes of the first words of a buffer register put those words and change nothing else. -/
theorem IsBuffer.writeAll (h : IsBuffer reg buf setBuf) (f : Nat → Word) (e : Engine) (k : Nat) :
    e.writeAll ((List.range k).map fun n => (reg n, f n)) = setBuf e (putWords (buf e) f k) := by
  induction k with
  | zero => exact (h.set_buf e).symm
  | succ k ih =>
    have hlast : e.writeAll ((List.range (k + 1)).map fun n => (reg n, f n)) =
        (e.writeAll ((List.range k).map fun n => (reg n, f n))).writeIdle (reg k) (f k) := by
      simp [Engine.writeAll, List.range_succ]
    rw [hlast, ih, h.write, h.buf_set, h.set_set, putWords]

/-- The host's turns at the writes of the first words of a buffer register, on an idle engine out of reset
(30_encoding.md R107). -/
theorem IsBuffer.run_writes (h : IsBuffer reg buf setBuf) {s : State} (f : Nat → Word) {k : Nat} {ops : List HostOp}
    {ts : List Turn} (hrst : s.rst = false) (hp : s.engine.pending = none)
    (hreg : ∀ n < k, IsInput (reg n) ∧ (reg n).wellFormed = true)
    (hprog : s.program = ((List.range k).map fun n => wrOp (offsetOf (reg n)) (f n)) ++ ops)
    (hts : s.turns = List.replicate k .host ++ ts) :
    Host.Core.run Sys2Proof.core k s =
      .next { s with engine := setBuf s.engine (putWords (buf s.engine) f k), program := ops, turns := ts } := by
  have hrun := run_host_writes (ws := (List.range k).map fun n => (reg n, f n)) (ops := ops) (ts := ts) hrst hp
    (fun w hw => by
      obtain ⟨n, hn, rfl⟩ := List.mem_map.1 hw
      exact hreg n (List.mem_range.1 hn))
    (by rw [List.map_map]; exact hprog) (by rw [List.length_map, List.length_range]; exact hts)
  rwa [h.writeAll, List.length_map, List.length_range] at hrun

end

/-- Settles O26: the statements are writes of input registers, which put the block's words (`putWords_be32`) or the
nonce's halves. -/
theorem loadStatementsFillTheirRegister : Obligations.LoadStatementsFillTheirRegister := by
  unfold Obligations.LoadStatementsFillTheirRegister
  intro s b imm ops ts hrst hp
  refine ⟨fun hprog hts => ?blk, fun hprog hts => ?iv, fun hprog hts => ?nonce⟩
  case blk =>
    rw [isBuffer_blk.run_writes (be32 b) hrst hp (fun n hn => ⟨trivial, decide_eq_true hn⟩) hprog hts, putWords_be32]
  case iv =>
    rw [isBuffer_iv.run_writes (be32 b) hrst hp (fun n hn => ⟨trivial, decide_eq_true hn⟩) hprog hts, putWords_be32]
  case nonce =>
    have hlo : imm.extractLsb' 0 32 = imm.setWidth 32 := by ext; simp
    have hhi : imm.extractLsb' 32 32 = (imm >>> 32).setWidth 32 := by ext; simp
    rw [← hlo, ← hhi]
    exact run_host_writes (ws := [(.nonceLo, imm.extractLsb' 0 32), (.nonceHi, imm.extractLsb' 32 32)]) hrst hp
      (by simp [IsInput, RegName.wellFormed]) hprog hts

/-- A key as a buffer, zero past its end (30_encoding.md R107). -/
def keyBufferOf (k : List Byte) : KeyBuffer := Vector.ofFn fun i => k.getD i.val 0

/-- The words `LOADKEY` writes are the words of the key's buffer (30_encoding.md R107). -/
theorem keyWord_eq_be32 (k : List Byte) {n : Nat} (h : n < 8) : keyWord k n = be32 (keyBufferOf k) n := by
  rw [be32, keyBufferOf, byteAt_ofFn _ (by omega), byteAt_ofFn _ (by omega), byteAt_ofFn _ (by omega),
    byteAt_ofFn _ (by omega)]
  rfl

/-- Settles O27: the statement is writes of `KEY` words (`run_host_writes`), whose bytes are the key's. -/
theorem loadkeyFillsTheKeyBytes : Obligations.LoadkeyFillsTheKeyBytes := by
  unfold Obligations.LoadkeyFillsTheKeyBytes
  intro s k ops ts hrst hp h1 h32 hprog hts
  refine ⟨putWords s.engine.keybuf (keyWord k) ((k.length + 3) / 4), ?run, fun n hn => ?bytes⟩
  case run =>
    refine isBuffer_key.run_writes (keyWord k) hrst hp (fun n hn => ⟨trivial, decide_eq_true ?_⟩) hprog hts
    omega
  case bytes =>
    rw [byteAt_putWords _ _ _ hn]
    by_cases hlt : n / 4 < (k.length + 3) / 4
    · rw [if_pos hlt, if_pos (by omega), keyWord_eq_be32 k (by omega), wordByte_be32 _ _ (Nat.mod_lt n (by decide)),
        Nat.div_add_mod, keyBufferOf, byteAt_ofFn _ hn]
    · rw [if_neg hlt, if_neg (by omega)]

end Sys2Proof.Machine
end

section
/-! The layer functions (40_layers.md): `SUB` and `SUBINV` cancel (R134), the bit permutations follow their table and
cancel (R136, R137), the linear transform has an inverse (R141, R143) and is linear (R144). -/

namespace Sys2Proof.Machine

/-! ### The S-box layer -/

/-- Settles O30: byte by byte the two look-ups undo each other, with the nibbles swapped twice (`swapSub_swapSub`). -/
theorem substitutionAndItsInverseCancel : Obligations.SubstitutionAndItsInverseCancel := by
  unfold Obligations.SubstitutionAndItsInverseCancel
  refine fun T b r hT => ⟨buffer_ext fun i hi => ?_, buffer_ext fun i hi => ?_⟩
  · rw [byteAt_subInv _ _ _ hi, byteAt_sub _ _ _ hi, swapSub_swapSub (sboxInvAt_sboxAt hT r)]
  · rw [byteAt_sub _ _ _ hi, byteAt_subInv _ _ _ hi, swapSub_swapSub (sboxAt_sboxInvAt hT r)]

/-! ### The bit permutations -/

/-- Bit `i` of `IPF(b)` is bit `IP_TABLE[i]` of `b`, the table's own entry (40_layers.md R137). -/
theorem blockBit_ipf_table (T : Tables) (b : Block) (i : Fin 128) :
    blockBit (ipf T b) i = blockBit b (T.ip[i]).val := by
  rw [blockBit_ipf T b i.isLt, ipAt_eq]

/-- Bit `IP_TABLE[i]` of `FPF(b)` is bit `i` of `b` (40_layers.md R136, R137). -/
theorem blockBit_fpf_table {T : Tables} (hT : T.Valid) (b : Block) (i : Fin 128) :
    blockBit (fpf T b) (T.ip[i]).val = blockBit b i := by
  rw [← ipAt_eq, blockBit_fpf T b (ipAt_lt T i), fpAt_ipAt hT i.isLt]

/-- `FPF` undoes `IPF` (40_layers.md R137). -/
theorem fpf_ipf {T : Tables} (hT : T.Valid) (b : Block) : fpf T (ipf T b) = b := by
  refine block_ext_bits fun i hi => ?_
  obtain ⟨hlt, hip⟩ := ipAt_fpAt hT hi
  rw [blockBit_fpf T _ hi, blockBit_ipf T b hlt, hip]

/-- `IPF` undoes `FPF` (40_layers.md R137). -/
theorem ipf_fpf {T : Tables} (hT : T.Valid) (b : Block) : ipf T (fpf T b) = b := by
  refine block_ext_bits fun i hi => ?_
  rw [blockBit_ipf T _ hi, blockBit_fpf T b (ipAt_lt T i), fpAt_ipAt hT hi]

/-- Settles O34: the four parts are the lemmas above. -/
theorem bitPermutationsFollowTheTableAndCancel : Obligations.BitPermutationsFollowTheTableAndCancel := by
  unfold Obligations.BitPermutationsFollowTheTableAndCancel
  exact fun T b hT => ⟨blockBit_ipf_table T b, blockBit_fpf_table hT b, fpf_ipf hT b, ipf_fpf hT b⟩

/-- Settles O31: `IP` writes `IPF(BLK)` (`exec_layer`), whose bits are `blockBit_ipf_table`. -/
theorem ipCommandPermutesTheBits : Obligations.IpCommandPermutesTheBits := by
  unfold Obligations.IpCommandPermutesTheBits
  intro s
  obtain ⟨t, hexec, hsucc, hblk⟩ := exec_layer (i := .ip) (s := s) rfl
  refine ⟨t, hexec, hsucc, fun i => ?_⟩
  rw [hblk]
  exact blockBit_ipf_table s.tables s.engine.blk i

/-- Settles O32: `FP` writes `FPF(BLK)` (`exec_layer`), whose bits are `blockBit_fpf_table`. -/
theorem fpCommandPermutesTheBits : Obligations.FpCommandPermutesTheBits := by
  unfold Obligations.FpCommandPermutesTheBits
  intro s
  obtain ⟨t, hexec, hsucc, hblk⟩ := exec_layer (i := .fp) (s := s) rfl
  refine ⟨t, hexec, hsucc, fun hT i => ?_⟩
  rw [hblk]
  exact blockBit_fpf_table hT s.engine.blk i

/-- Settles O33: the default table's entries are `ipAt_defaultTables`, those of its inverse `fpAt_defaultTables`. -/
theorem defaultTablesPermuteTheBitsByTheirFormulas : Obligations.DefaultTablesPermuteTheBitsByTheirFormulas := by
  unfold Obligations.DefaultTablesPermuteTheBitsByTheirFormulas
  intro s htab
  obtain ⟨t, hip, -, hipblk⟩ := exec_layer (i := .ip) (s := s) rfl
  obtain ⟨u, hfp, -, hfpblk⟩ := exec_layer (i := .fp) (s := s) rfl
  refine ⟨t, u, hip, hfp, fun i hi => ⟨?_, ?_⟩⟩
  · rw [hipblk, htab, ← ipAt_defaultTables hi]
    exact blockBit_ipf defaultTables s.engine.blk hi
  · rw [hfpblk, htab, ← fpAt_defaultTables hi]
    exact blockBit_fpf defaultTables s.engine.blk hi

/-! ### The inverse of the linear transform -/

/-- Settles O36: the model's inverse core is R141's steps with `rotr` for the library's rotation (`rotr_eq`). -/
theorem ltInvCommandAppliesTheInverseCore : Obligations.LtInvCommandAppliesTheInverseCore := by
  unfold Obligations.LtInvCommandAppliesTheInverseCore
  intro s
  obtain ⟨t, hexec, hsucc, hblk⟩ := exec_layer (i := .ltInv) (s := s) rfl
  refine ⟨t, hexec, hsucc, ?_⟩
  simp (disch := decide) only [hblk, lti, quadOf, ltwi, blockOf, rotr_eq]

/-- XOR with the same two words twice cancels: the mixing lines of R140 and R141 undo each other. -/
theorem xor_mix_mix (a b c : Word) : a ^^^ b ^^^ c ^^^ b ^^^ c = a := by
  have hpairs : a ^^^ b ^^^ c ^^^ b ^^^ c = a ^^^ (b ^^^ b) ^^^ (c ^^^ c) := by ac_rfl
  rw [hpairs, BitVec.xor_self, BitVec.xor_self, BitVec.xor_zero, BitVec.xor_zero]

/-- `LTWI` undoes `LTW`, line by line (40_layers.md R141). -/
theorem ltwi_ltw (q : Quad) : ltwi (ltw q) = q := by
  simp (disch := decide) only [ltw, ltwi, rotr_rotl, xor_mix_mix]

/-- `LTW` undoes `LTWI`, line by line (40_layers.md R141). -/
theorem ltw_ltwi (q : Quad) : ltw (ltwi q) = q := by
  simp (disch := decide) only [ltw, ltwi, rotl_rotr, xor_mix_mix]

/-- `LTI` undoes `LTF` (40_layers.md R143). -/
theorem lti_ltf {T : Tables} (hT : T.Valid) (b : Block) : lti T (ltf T b) = b := by
  rw [lti, ltf, fpf_ipf hT, quadOf_blockOf, ltwi_ltw, blockOf_quadOf, ipf_fpf hT]

/-- `LTF` undoes `LTI` (40_layers.md R143). -/
theorem ltf_lti {T : Tables} (hT : T.Valid) (b : Block) : ltf T (lti T b) = b := by
  rw [ltf, lti, fpf_ipf hT, quadOf_blockOf, ltw_ltwi, blockOf_quadOf, ipf_fpf hT]

/-- Settles O37: the word cores cancel, and so do the block transforms built on them. -/
theorem linearTransformAndItsInverseCancel : Obligations.LinearTransformAndItsInverseCancel := by
  unfold Obligations.LinearTransformAndItsInverseCancel
  exact ⟨fun q => ⟨ltwi_ltw q, ltw_ltwi q⟩, fun T b hT => ⟨lti_ltf hT b, ltf_lti hT b⟩⟩

/-! ### Linearity -/

/-- A function of blocks is linear over GF(2) (40_layers.md R144). -/
def XorLinear (f : Block → Block) : Prop := ∀ a b, f (xorBlock a b) = xorBlock (f a) (f b)

theorem xorBlock_self (b : Block) : xorBlock b b = Vector.replicate 16 0 := by
  refine buffer_ext fun i hi => ?_
  rw [byteAt_xorBlock _ _ hi, BitVec.xor_self, byteAt_eq_getElem _ hi, Vector.getElem_replicate]
  rfl

/-- A linear function takes the zero block to the zero block. -/
theorem XorLinear.map_zero {f : Block → Block} (h : XorLinear f) : f (Vector.replicate 16 0) = Vector.replicate 16 0 := by
  have hzero := h (Vector.replicate 16 0) (Vector.replicate 16 0)
  rwa [xorBlock_self, xorBlock_self] at hzero

theorem ipf_linear (T : Tables) : XorLinear (ipf T) := fun a b => block_ext_bits fun i hi => by
  simp only [blockBit_xorBlock, blockBit_ipf T _ hi]

theorem fpf_linear (T : Tables) : XorLinear (fpf T) := fun a b => block_ext_bits fun i hi => by
  simp only [blockBit_xorBlock, blockBit_fpf T _ hi]

/-- XOR of four words with four words. -/
def Quad.xor (p q : Quad) : Quad := ⟨p.x0 ^^^ q.x0, p.x1 ^^^ q.x1, p.x2 ^^^ q.x2, p.x3 ^^^ q.x3⟩

theorem wordByte_xor (v w : Word) (o : Nat) : wordByte (v ^^^ w) o = wordByte v o ^^^ wordByte w o := by
  simp only [wordByte_eq_extract, BitVec.extractLsb'_xor]

theorem be32_xorBlock (a b : Block) {k : Nat} (h : k < 4) : be32 (xorBlock a b) k = be32 a k ^^^ be32 b k := by
  refine word_ext fun o ho => ?_
  rw [wordByte_xor, wordByte_be32 _ _ ho, wordByte_be32 _ _ ho, wordByte_be32 _ _ ho, byteAt_xorBlock _ _ (by omega)]

theorem quadOf_xorBlock (a b : Block) : quadOf (xorBlock a b) = (quadOf a).xor (quadOf b) := by
  simp (disch := decide) only [quadOf, Quad.xor, be32_xorBlock]

theorem blockOf_xor (p q : Quad) : blockOf (p.xor q) = xorBlock (blockOf p) (blockOf q) := by
  rw [← quadOf_blockOf p, ← quadOf_blockOf q, ← quadOf_xorBlock, quadOf_blockOf, quadOf_blockOf, blockOf_quadOf]

theorem Quad.eq_of_words {p q : Quad} (h0 : p.x0 = q.x0) (h1 : p.x1 = q.x1) (h2 : p.x2 = q.x2) (h3 : p.x3 = q.x3) :
    p = q := by
  cases p
  cases q
  simp only at h0 h1 h2 h3
  rw [h0, h1, h2, h3]

/-- A word computed from four words is linear over GF(2) (40_layers.md R144). -/
def WordLinear (f : Quad → Word) : Prop := ∀ p q, f (p.xor q) = f p ^^^ f q

section
variable {f g : Quad → Word}

/-- XOR of linear words is linear. -/
theorem WordLinear.xor (hf : WordLinear f) (hg : WordLinear g) : WordLinear fun q => f q ^^^ g q := fun p q => by
  simp only [hf p q, hg p q]
  ac_rfl

/-- A shift moves the bits of both operands alike. -/
theorem WordLinear.shl (hf : WordLinear f) (n : Nat) : WordLinear fun q => f q <<< n := fun p q => by
  simp only [hf p q, BitVec.shiftLeft_xor_distrib]

/-- A rotation to the left moves the bits of both operands alike. -/
theorem WordLinear.rotl (hf : WordLinear f) {n : Nat} (h : n < 32) : WordLinear fun q => rotl (f q) n := fun p q => by
  simp only [rotl_eq _ h, hf p q]
  ext j hj
  simp only [BitVec.getElem_xor, BitVec.getElem_rotateLeft]
  split <;> rfl

/-- A rotation to the right moves the bits of both operands alike. -/
theorem WordLinear.rotr (hf : WordLinear f) {n : Nat} (h : n < 32) : WordLinear fun q => rotr (f q) n := fun p q => by
  simp only [rotr_eq _ h, hf p q]
  ext j hj
  simp only [BitVec.getElem_xor, BitVec.getElem_rotateRight]
  split <;> rfl

end

theorem wordLinear_x0 : WordLinear Quad.x0 := fun _ _ => rfl
theorem wordLinear_x1 : WordLinear Quad.x1 := fun _ _ => rfl
theorem wordLinear_x2 : WordLinear Quad.x2 := fun _ _ => rfl
theorem wordLinear_x3 : WordLinear Quad.x3 := fun _ _ => rfl

/-- The word core is linear: each line of R140 is (40_layers.md R144). -/
theorem ltw_xor (p q : Quad) : ltw (p.xor q) = (ltw p).xor (ltw q) := by
  have x0 := wordLinear_x0.rotl (n := 13) (by decide)
  have x2 := wordLinear_x2.rotl (n := 3) (by decide)
  have x1 := ((wordLinear_x1.xor x0).xor x2).rotl (n := 1) (by decide)
  have x3 := ((wordLinear_x3.xor x2).xor (x0.shl 3)).rotl (n := 7) (by decide)
  have y0 := ((x0.xor x1).xor x3).rotl (n := 5) (by decide)
  have y2 := ((x2.xor x3).xor (x1.shl 7)).rotl (n := 22) (by decide)
  exact Quad.eq_of_words (y0 p q) (x1 p q) (y2 p q) (x3 p q)

/-- The inverse word core is linear: each line of R141 is (40_layers.md R144). -/
theorem ltwi_xor (p q : Quad) : ltwi (p.xor q) = (ltwi p).xor (ltwi q) := by
  have x2 := ((wordLinear_x2.rotr (n := 22) (by decide)).xor wordLinear_x3).xor (wordLinear_x1.shl 7)
  have x0 := ((wordLinear_x0.rotr (n := 5) (by decide)).xor wordLinear_x1).xor wordLinear_x3
  have x3 := ((wordLinear_x3.rotr (n := 7) (by decide)).xor x2).xor (x0.shl 3)
  have x1 := ((wordLinear_x1.rotr (n := 1) (by decide)).xor x0).xor x2
  exact Quad.eq_of_words (x0.rotr (n := 13) (by decide) p q) (x1 p q) (x2.rotr (n := 3) (by decide) p q) (x3 p q)

theorem ltf_linear (T : Tables) : XorLinear (ltf T) := fun a b => by
  rw [ltf, fpf_linear, quadOf_xorBlock, ltw_xor, blockOf_xor, ipf_linear]
  rfl

theorem lti_linear (T : Tables) : XorLinear (lti T) := fun a b => by
  rw [lti, fpf_linear, quadOf_xorBlock, ltwi_xor, blockOf_xor, ipf_linear]
  rfl

/-- Settles O38: each function of the transform is linear, and a linear function keeps the zero block. -/
theorem linearTransformIsLinear : Obligations.LinearTransformIsLinear := by
  unfold Obligations.LinearTransformIsLinear
  exact fun T a b => ⟨ltf_linear T a b, (ltf_linear T).map_zero, lti_linear T a b, (lti_linear T).map_zero⟩

end Sys2Proof.Machine
end

section
/-! Key and cipher properties: what `SETKEY` reads of the key buffer and how the padding byte matters
(41_key_schedule.md R170, R175, R180), decryption inverts encryption (42_cipher.md R203), and CBC streams (43_cbc.md R223,
R226). -/

namespace Sys2Proof.Machine

/-! ### The key schedule -/

/-- The schedule depends on the first `len` bytes of the key buffer only (41_key_schedule.md R171). -/
theorem prekeys_congr {k k' : KeyBuffer} {len : Nat} (h : ∀ n < len, byteAt k n = byteAt k' n) :
    prekeys k len = prekeys k' len := by
  have hpad : padKey k len = padKey k' len := buffer_ext fun n hn => by
    rw [byteAt_padKey _ _ hn, byteAt_padKey _ _ hn]
    split_ifs with hlt
    · exact h n hlt
    · rfl
    · rfl
  rw [prekeys, hpad, prekeys]

/-- Settles O40: the padded key holds no byte of the buffer past `len` (`prekeys_congr`). -/
theorem setkeyReadsOnlyTheKeyBytes : Obligations.SetkeyReadsOnlyTheKeyBytes := by
  unfold Obligations.SetkeyReadsOnlyTheKeyBytes
  intro s s' len h1 h32 h
  exact ⟨_, _, exec_setkey h1 h32, exec_setkey h1 h32, prekeys_congr h⟩

/-- Settles O41: byte `len` of the first eight prekeys (`pkAt_prekeys_byte`) is `0x80` for the padded key and 0 for the
other. -/
theorem paddingByteAffectsTheSchedule : Obligations.PaddingByteAffectsTheSchedule := by
  unfold Obligations.PaddingByteAffectsTheSchedule
  intro s s' len h1 h32 _ hzero
  refine ⟨_, _, exec_setkey h1 (by omega), exec_setkey (by decide) (by decide), fun heq => ?_⟩
  have hpadded := pkAt_prekeys_byte s.engine.keybuf len h32
  have hfull := pkAt_prekeys_byte s'.engine.keybuf 32 h32
  rw [if_neg (Nat.lt_irrefl len), if_pos rfl] at hpadded
  rw [if_pos h32, hzero len (Nat.le_refl len) h32] at hfull
  have heq' : prekeys s.engine.keybuf len = prekeys s'.engine.keybuf 32 := heq
  rw [heq', hfull] at hpadded
  exact absurd hpadded (by decide)

/-! ### The rounds -/

section
variable {T : Tables} (hT : T.Valid) (pk : Prekeys)
include hT

theorem subInv_sub (b : Block) (r : Nat) : subInv T (sub T b r) r = b :=
  (substitutionAndItsInverseCancel T b r hT).1

theorem sub_subInv (b : Block) (r : Nat) : sub T (subInv T b r) r = b :=
  (substitutionAndItsInverseCancel T b r hT).2

/-- A round of `DEC` undoes the round of `ENC` with the same number (42_cipher.md R203). -/
theorem decRound_encRound (s : Block) {r : Nat} (h : r < 31) : decRound T pk r (encRound T pk r s) = s := by
  rw [encRound_inner _ _ _ h, decRound_inner _ _ _ h, lti_ltf hT, subInv_sub hT, xorBlock_xorBlock_self]

theorem encRound_decRound (s : Block) {r : Nat} (h : r < 31) : encRound T pk r (decRound T pk r s) = s := by
  rw [encRound_inner _ _ _ h, decRound_inner _ _ _ h, xorBlock_xorBlock_self, sub_subInv hT, ltf_lti hT]

/-- Round 31 of `DEC`, after the XOR with round key 32, undoes round 31 of `ENC` (42_cipher.md R203). -/
theorem decRound_encRound_last (s : Block) :
    decRound T pk 31 (xorBlock (encRound T pk 31 s) (rkf T pk 32)) = s := by
  rw [encRound_last, decRound_last, xorBlock_xorBlock_self, subInv_sub hT, xorBlock_xorBlock_self]

theorem encRound_decRound_last (s : Block) :
    encRound T pk 31 (decRound T pk 31 s) = xorBlock s (rkf T pk 32) := by
  rw [encRound_last, decRound_last, xorBlock_xorBlock_self, sub_subInv hT]

/-- The rounds below 31 of `DEC` undo those of `ENC`, the last one first. -/
theorem decRounds_encRounds (s : Block) {n : Nat} (h : n ≤ 31) : decRounds T pk (encRounds T pk s n) n = s := by
  induction n with
  | zero => rfl
  | succ n ih => rw [decRounds_succ, encRounds_succ, decRound_encRound hT pk _ h, ih (by omega)]

theorem encRounds_decRounds (s : Block) {n : Nat} (h : n ≤ 31) : encRounds T pk (decRounds T pk s n) n = s := by
  induction n generalizing s with
  | zero => rfl
  | succ n ih => rw [decRounds_succ, encRounds_succ, ih _ (by omega), encRound_decRound hT pk _ h]

/-- `DEC(PK, ENC(PK, b)) = b` (42_cipher.md R203). -/
theorem dec_enc (b : Block) : dec T pk (enc T pk b) = b := by
  rw [dec, enc, groupReverse_groupReverse, ipf_fpf hT, decRounds_succ, encRounds_succ, decRound_encRound_last hT,
    decRounds_encRounds hT pk _ (Nat.le_refl 31), groupReverse_groupReverse, fpf_ipf hT]

/-- `ENC(PK, DEC(PK, c)) = c` (42_cipher.md R203). -/
theorem enc_dec (c : Block) : enc T pk (dec T pk c) = c := by
  rw [enc, dec, ipf_fpf hT, groupReverse_groupReverse, encRounds_succ, decRounds_succ,
    encRounds_decRounds hT pk _ (Nat.le_refl 31), encRound_decRound_last hT, xorBlock_xorBlock_self, fpf_ipf hT,
    groupReverse_groupReverse]

end

/-- Settles O45: `dec_enc`, `enc_dec`, and `dec_enc` for the two commands, the first of which keeps the key. -/
theorem decryptionInvertsEncryption : Obligations.DecryptionInvertsEncryption := by
  unfold Obligations.DecryptionInvertsEncryption
  refine ⟨fun T pk b hT => ⟨dec_enc hT pk b, enc_dec hT pk b⟩, fun s hT hk => ?_⟩
  exact ⟨_, _, exec_encrypt hk, exec_decrypt (by exact hk), dec_enc hT s.engine.pk s.engine.blk⟩

/-! ### One chunk -/

/-- The padded chunk depends on the chunk's bytes only (43_cbc.md R223). -/
theorem zeroPad_congr {b b' : Block} {n : Nat} (h : ∀ m < n, byteAt b m = byteAt b' m) : zeroPad b n = zeroPad b' n :=
  buffer_ext fun m hm => by
    rw [byteAt_zeroPad _ _ hm, byteAt_zeroPad _ _ hm]
    split_ifs with hlt
    · exact h m hlt
    · rfl

/-- Settles O49: the block encrypted is made of the padded chunk (`zeroPad_congr`), the chain state and the key. -/
theorem cbcEncIgnoresBytesPastTheChunk : Obligations.CbcEncIgnoresBytesPastTheChunk := by
  unfold Obligations.CbcEncIgnoresBytesPastTheChunk
  intro s s' n h1 h16 hk hk' htab hpk hiv h
  have hcipher : enc s.tables s.engine.pk (xorBlock (zeroPad s.engine.blk n) s.engine.iv) =
      enc s'.tables s'.engine.pk (xorBlock (zeroPad s'.engine.blk n) s'.engine.iv) := by
    rw [zeroPad_congr h, htab, hpk, hiv]
  exact ⟨_, _, exec_cbcEnc h1 h16 hk, exec_cbcEnc h1 h16 hk', hcipher, hcipher⟩

/-- The block that holds a chunk is already padded (43_cbc.md R223). -/
theorem zeroPad_chunkBlock (chunk : List Byte) : zeroPad (chunkBlock chunk) chunk.length = chunkBlock chunk :=
  buffer_ext fun m hm => by
    rw [byteAt_zeroPad _ _ hm, chunkBlock, byteAt_ofFn _ hm]
    split_ifs with hlt
    · rfl
    · exact (List.getD_eq_default _ _ (Nat.not_lt.1 hlt)).symm

/-- The state after a chained block: `BLK` and `IV` written, the command done (43_cbc.md R223, R224). -/
def State.chained (s : State) (blk iv : Block) : State :=
  { s with engine := { s.engine with blk := blk, iv := iv }.done }

@[simp] theorem State.chained_tables (s : State) (b v : Block) : (s.chained b v).tables = s.tables := rfl
@[simp] theorem State.chained_pk (s : State) (b v : Block) : (s.chained b v).engine.pk = s.engine.pk := rfl
@[simp] theorem State.chained_blk (s : State) (b v : Block) : (s.chained b v).engine.blk = b := rfl
@[simp] theorem State.chained_iv (s : State) (b v : Block) : (s.chained b v).engine.iv = v := rfl

/-- The ciphertext block of a chunk: `ENC` of its block XOR the chain state (43_cbc.md R223). -/
def cipherBlock (T : Tables) (pk : Prekeys) (iv : Block) (chunk : List Byte) : Block :=
  enc T pk (xorBlock (chunkBlock chunk) iv)

/-- `CBC_ENC` of a loaded chunk, with a key (43_cbc.md R223, R225). -/
theorem exec_cbcEnc_loadBlk {s : State} {chunk : List Byte} (hk : s.engine.keyValid = true) (h1 : 1 ≤ chunk.length)
    (h16 : chunk.length ≤ 16) :
    exec (.cbcEnc chunk.length) (s.loadBlk (chunkBlock chunk)) =
      .next (s.chained (cipherBlock s.tables s.engine.pk s.engine.iv chunk)
        (cipherBlock s.tables s.engine.pk s.engine.iv chunk)) := by
  rw [exec_cbcEnc h1 h16 (by exact hk)]
  simp only [State.loadBlk, zeroPad_chunkBlock]
  rfl

/-- `CBC_DEC` of a chunk's ciphertext block, from the same chain state, restores the chunk's block (43_cbc.md R224). -/
theorem exec_cbcDec_loadBlk {s : State} (hT : s.tables.Valid) (hk : s.engine.keyValid = true) (chunk : List Byte) :
    exec .cbcDec (s.loadBlk (cipherBlock s.tables s.engine.pk s.engine.iv chunk)) =
      .next (s.chained (chunkBlock chunk) (cipherBlock s.tables s.engine.pk s.engine.iv chunk)) := by
  rw [exec_cbcDec (by exact hk)]
  simp only [State.loadBlk, cipherBlock, dec_enc hT, xorBlock_xorBlock_self]
  rfl

/-! ### Streams -/

/-- Two states with the same tables, key and nonce. -/
structure SameKeyAndNonce (s t : State) : Prop where
  tables : t.tables = s.tables
  pk : t.engine.pk = s.engine.pk
  keyValid : t.engine.keyValid = s.engine.keyValid
  nonceHi : t.engine.nonceHi = s.engine.nonceHi
  nonceLo : t.engine.nonceLo = s.engine.nonceLo

theorem SameKeyAndNonce.trans {s t u : State} (h : SameKeyAndNonce s t) (h' : SameKeyAndNonce t u) :
    SameKeyAndNonce s u :=
  ⟨h'.tables.trans h.tables, h'.pk.trans h.pk, h'.keyValid.trans h.keyValid, h'.nonceHi.trans h.nonceHi,
    h'.nonceLo.trans h.nonceLo⟩

theorem sameKeyAndNonce_chained (s : State) (blk iv : Block) : SameKeyAndNonce s (s.chained blk iv) :=
  ⟨rfl, rfl, rfl, rfl, rfl⟩

/-- A stream's encryption, one command that succeeds after another (43_cbc.md R225). -/
theorem encryptChunks_cons {chunk : List Byte} {rest : List (List Byte)} {s t u : State} {cs : List Block}
    (hexec : exec (.cbcEnc chunk.length) (s.loadBlk (chunkBlock chunk)) = .next t) (herr : t.engine.err = 0)
    (hrest : encryptChunks rest t = some (cs, u)) :
    encryptChunks (chunk :: rest) s = some (t.engine.blk :: cs, u) := by
  simp only [encryptChunks, hexec, herr, hrest, if_true]

/-- A stream's decryption, one command that succeeds after another (43_cbc.md R225). -/
theorem decryptBlocks_cons {c : Block} {rest : List Block} {s t u : State} {ps : List Block}
    (hexec : exec .cbcDec (s.loadBlk c) = .next t) (herr : t.engine.err = 0)
    (hrest : decryptBlocks rest t = some (ps, u)) : decryptBlocks (c :: rest) s = some (t.engine.blk :: ps, u) := by
  simp only [decryptBlocks, hexec, herr, hrest, if_true]

/-- The ciphertext blocks of a stream of chunks, from the chain state `iv` (43_cbc.md R223, R225). -/
def cipherBlocks (T : Tables) (pk : Prekeys) : Block → List (List Byte) → List Block
  | _, [] => []
  | iv, chunk :: rest => cipherBlock T pk iv chunk :: cipherBlocks T pk (cipherBlock T pk iv chunk) rest

/-- With a key the encryption of a stream emits `cipherBlocks` and keeps tables, key and nonce (43_cbc.md R225). -/
theorem encryptChunks_eq {chunks : List (List Byte)} {s : State} (hk : s.engine.keyValid = true)
    (hlen : ∀ chunk ∈ chunks, 1 ≤ chunk.length ∧ chunk.length ≤ 16) :
    ∃ t, encryptChunks chunks s = some (cipherBlocks s.tables s.engine.pk s.engine.iv chunks, t) ∧
      SameKeyAndNonce s t := by
  induction chunks generalizing s with
  | nil => exact ⟨s, rfl, rfl, rfl, rfl, rfl, rfl⟩
  | cons chunk rest ih =>
    obtain ⟨⟨h1, h16⟩, hrest⟩ := List.forall_mem_cons.1 hlen
    obtain ⟨t, ht, hsame⟩ := ih (s := s.chained _ _) hk hrest
    exact ⟨t, encryptChunks_cons (exec_cbcEnc_loadBlk hk h1 h16) rfl ht, (sameKeyAndNonce_chained s _ _).trans hsame⟩

/-- From the same chain state the decryption of a stream emits the chunks' blocks (43_cbc.md R225, R226). -/
theorem decryptBlocks_cipherBlocks {s : State} (hT : s.tables.Valid) (hk : s.engine.keyValid = true)
    (chunks : List (List Byte)) :
    ∃ t, decryptBlocks (cipherBlocks s.tables s.engine.pk s.engine.iv chunks) s =
      some (chunks.map chunkBlock, t) := by
  induction chunks generalizing s with
  | nil => exact ⟨s, rfl⟩
  | cons chunk rest ih =>
    obtain ⟨t, ht⟩ := ih (s := s.chained (chunkBlock chunk) (cipherBlock s.tables s.engine.pk s.engine.iv chunk)) hT hk
    simp only [State.chained_tables, State.chained_pk, State.chained_iv] at ht
    refine ⟨t, ?_⟩
    rw [cipherBlocks, decryptBlocks_cons (exec_cbcDec_loadBlk hT hk chunk) rfl ht, State.chained_blk, List.map_cons]

/-- The chain state that `CBC_INIT` starts from (43_cbc.md R222). -/
def State.initialIv (s : State) : Block :=
  enc s.tables s.engine.pk (nonceBlock (nonceValue s.engine.nonceHi s.engine.nonceLo))

/-- The state after a command that writes `IV` and ends with `done` (43_cbc.md R222). -/
def State.withIv (s : State) (v : Block) : State := { s with engine := { s.engine with iv := v }.done }

@[simp] theorem State.withIv_tables (s : State) (v : Block) : (s.withIv v).tables = s.tables := rfl
@[simp] theorem State.withIv_pk (s : State) (v : Block) : (s.withIv v).engine.pk = s.engine.pk := rfl
@[simp] theorem State.withIv_keyValid (s : State) (v : Block) : (s.withIv v).engine.keyValid = s.engine.keyValid := rfl
@[simp] theorem State.withIv_iv (s : State) (v : Block) : (s.withIv v).engine.iv = v := rfl
@[simp] theorem State.withIv_err (s : State) (v : Block) : (s.withIv v).engine.err = 0 := rfl

theorem sameKeyAndNonce_withIv (s : State) (v : Block) : SameKeyAndNonce s (s.withIv v) := ⟨rfl, rfl, rfl, rfl, rfl⟩

/-- `CBC_INIT` with a key starts the chain (43_cbc.md R222). -/
theorem exec_cbcInit_withIv {s : State} (hk : s.engine.keyValid = true) :
    exec .cbcInit s = .next (s.withIv s.initialIv) :=
  exec_cbcInit hk

/-- The chain state that `CBC_INIT` starts from depends on the tables, the key and the nonce only (43_cbc.md R222). -/
theorem SameKeyAndNonce.initialIv_eq {s t : State} (h : SameKeyAndNonce s t) : t.initialIv = s.initialIv := by
  rw [State.initialIv, h.tables, h.pk, h.nonceHi, h.nonceLo, State.initialIv]

/-! ### The bytes of a stream -/

/-- Every chunk of a stream has 1 to 16 bytes (43_cbc.md R225). -/
theorem length_of_mem_chunksOf {data chunk : List Byte} (h : chunk ∈ chunksOf data) :
    1 ≤ chunk.length ∧ chunk.length ≤ 16 := by
  obtain ⟨i, hi, rfl⟩ := List.mem_map.1 h
  have := List.mem_range.1 hi
  rw [List.length_take, List.length_drop]
  omega

/-- The chunks of a stream are its first 16 bytes and the chunks of what follows (43_cbc.md R225). -/
theorem chunksOf_eq_cons {data : List Byte} (h : data ≠ []) :
    chunksOf data = data.take 16 :: chunksOf (data.drop 16) := by
  have hpos := List.length_pos_iff.2 h
  have hcount : (data.length + 15) / 16 = ((data.drop 16).length + 15) / 16 + 1 := by
    rw [List.length_drop]
    omega
  rw [chunksOf, hcount, List.range_succ_eq_map, List.map_cons, List.map_map, chunksOf]
  refine congrArg _ (List.map_congr_left fun i _ => ?_)
  rw [Function.comp_apply, List.drop_drop, Nat.mul_succ, Nat.add_comm]

/-- The bytes of a chunk's block are the chunk's and zeros (43_cbc.md R223). -/
theorem chunkBlock_toList {chunk : List Byte} (h : chunk.length ≤ 16) :
    (chunkBlock chunk).toList = chunk ++ List.replicate (16 - chunk.length) 0 := by
  refine List.ext_getElem (by simp [h]) fun i hi _ => ?_
  by_cases hlt : i < chunk.length
  · simp [chunkBlock, hlt]
  · simp [chunkBlock, Nat.not_lt.1 hlt]

/-- The blocks of a stream's chunks hold its bytes and fewer than 16 zero bytes (43_cbc.md R226). -/
theorem bytesOf_chunkBlocks (data : List Byte) :
    ∃ pad, pad < 16 ∧ bytesOf ((chunksOf data).map chunkBlock) = data ++ List.replicate pad 0 := by
  induction hn : data.length using Nat.strongRecOn generalizing data with
  | ind n ih =>
    by_cases hnil : data = []
    · exact ⟨0, by decide, by rw [hnil]; rfl⟩
    · have hpos := List.length_pos_iff.2 hnil
      rw [chunksOf_eq_cons hnil, List.map_cons, bytesOf, List.flatMap_cons,
        chunkBlock_toList (List.length_take_le 16 data)]
      by_cases hlong : 16 ≤ data.length
      · obtain ⟨pad, hpad, hbytes⟩ := ih _ (by rw [List.length_drop]; omega) (data.drop 16) rfl
        refine ⟨pad, hpad, ?_⟩
        rw [bytesOf] at hbytes
        rw [hbytes, List.length_take, Nat.min_eq_left hlong, Nat.sub_self, List.replicate_zero, List.append_nil,
          ← List.append_assoc, List.take_append_drop]
      · refine ⟨16 - data.length, by omega, ?_⟩
        rw [List.take_of_length_le (by omega), List.drop_of_length_le (by omega)]
        exact List.append_nil _

/-- Settles O50: the two `CBC_INIT` give the same chain state, so the decryption emits the chunks' blocks
(`decryptBlocks_cipherBlocks`), whose bytes are the stream's (`bytesOf_chunkBlocks`). -/
theorem cbcStreamDecryptsToItsBytes : Obligations.CbcStreamDecryptsToItsBytes := by
  unfold Obligations.CbcStreamDecryptsToItsBytes
  intro s data hT hk
  have hk0 : (s.withIv s.initialIv).engine.keyValid = true := (s.withIv_keyValid _).trans hk
  obtain ⟨s1, henc, hsame⟩ := encryptChunks_eq (chunks := chunksOf data) hk0 fun _ => length_of_mem_chunksOf
  have hsame1 : SameKeyAndNonce s s1 := (sameKeyAndNonce_withIv s _).trans hsame
  have hk1 : s1.engine.keyValid = true := hsame1.keyValid.trans hk
  have hinit1 := exec_cbcInit_withIv hk1
  rw [hsame1.initialIv_eq] at hinit1
  have hsame2 : SameKeyAndNonce s (s1.withIv s.initialIv) := hsame1.trans (sameKeyAndNonce_withIv s1 _)
  obtain ⟨s3, hdec⟩ := decryptBlocks_cipherBlocks (hsame2.tables ▸ hT) (hsame2.keyValid.trans hk) (chunksOf data)
  rw [State.withIv_tables, State.withIv_pk, State.withIv_iv] at henc
  rw [hsame2.tables, hsame2.pk, State.withIv_iv] at hdec
  exact ⟨_, _, s1, _, _, s3, exec_cbcInit_withIv hk, s.withIv_err _, henc, hinit1, s1.withIv_err _, hdec,
    bytesOf_chunkBlocks data⟩

end Sys2Proof.Machine
end
